-- ==== Sys2Proof/Word.lean ====
section
/-! DEFINITION. The word types of GCFP (00_scope.md R9): every value is unsigned, a byte is 8 bits, a word 16. -/

namespace Sys2Proof

/-- A byte: the data width of the host port and of every buffer and register byte (00_scope.md R9, R11). -/
abbrev Byte := BitVec 8

/-- A 16-bit word (00_scope.md R9): an element of the result file W. -/
abbrev Word16 := BitVec 16

/-- A 4-bit field: OP and ARG of a command byte (30_encoding.md R60), STATUS.ERRIDX (10_state.md R24). -/
abbrev Nibble := BitVec 4

/-- A host address: 6 bits, 0x00 to 0x3F (20_memory.md R40). -/
abbrev PortAddr := BitVec 6

end Sys2Proof
end

