-- ==== Sys2Proof/Config.lean ====
section
/-! DEFINITION. The parameters of GCFP: those the source fixes (00_scope.md R7), those the spec fixes (00_scope.md R8),
the named wire constants (30_encoding.md R72), and, as constants without a body, what the spec leaves open. -/

namespace Sys2Proof.Config

/-! ## Fixed by the source (00_scope.md R7)

CRC_WIDTH is the width of `Byte`; CRC_REFIN, CRC_REFOUT are false and CRC_XOROUT is 0: no operation stands for them. -/

/-- CRC_POLY: 0x31, without the x^8 term, which is the bit shifted out (40_checksum.md R80). -/
def crcPoly : Byte := 0x31

/-- CRC_INIT: "initial register 0xFF". -/
def crcInit : Byte := 0xFF

/-- GROUP_LEN: 2 payload bytes and 1 checksum byte. -/
def groupLen : Nat := 3

/-- PM_FRAME_LEN: the length of a particulate frame. -/
def pmFrameLen : Nat := 32

/-- PM_MAGIC at byte 0. -/
def pmMagic0 : Byte := 0x42

/-- PM_MAGIC at byte 1. -/
def pmMagic1 : Byte := 0x4D

/-- PM_FIELD_BASE: the offset of field 0. -/
def pmFieldBase : Nat := 0x0A

/-- The number of fields of a particulate frame, 2 bytes each, contiguous. -/
def pmFieldCount : Nat := 9

/-! ## Fixed by the spec (00_scope.md R8)

N_MAX is checked by `Instr.wf`; W_COUNT, ADDR_WIDTH and DATA_WIDTH are in the types of `State.w`, `PortAddr`, `Byte`. -/

/-- BUF_SIZE: the bytes of the input buffer, and the largest value LEN holds. -/
def bufSize : Nat := 32

/-- N_MAX: the largest group count of WRD. -/
def nMax : Nat := 10

/-! ## Named wire constants (30_encoding.md R72): sensor opcodes, data to GCFP, no commands of it (00_scope.md R6) -/

/-- The sensor opcode Stop. -/
def sensorStop : Word16 := 0x3F86

/-- The sensor opcode Start. -/
def sensorStart : Word16 := 0x21B1

/-- The sensor opcode ReadMeasurement. -/
def sensorReadMeasurement : Word16 := 0xEC05

/-! ## Open (00_scope.md R8, 93_implementation_defined.md) -/

/-- BUF_RESET: `bufReset k i` is what byte `i` of BUF reads as after the `k`-th reset (0 is the power-on reset) until the
host writes it: "any value (a draw per byte, fixed until the host writes it)" (93_implementation_defined.md section 2,
10_state.md R21). A FREE VALUE: it has no body, so no proof can see what it is (log 1). -/
opaque bufReset : Nat → Nat → Byte

/-- The cycles a command takes beyond the first; it may depend on the command byte and on LEN
(70_reset_and_hazards.md R166). No definition reads it (log 8). -/
opaque extraLatency : Byte → Byte → Nat

/-- CMD_LATENCY of a command byte at a value of LEN: any value of at least 1. No rule depends on it (log 8). -/
def cmdLatency (cmd len : Byte) : Nat := 1 + extraLatency cmd len

/-- CLOCK: the frequency of the single clock. No rule depends on it (log 8). -/
opaque clock : Nat

/-- GCFP_BASE: where the platform places the register space in the host's address space (60_exceptions.md R150,
92_eei_decisions.md D2). No rule reads it (log 8). -/
opaque gcfpBase : Nat

end Sys2Proof.Config
end

