-- ==== Sys2Proof/Syntax.lean ====
section
/-! DEFINITION. The instructions of GCFP: the six commands of opcode_table.json (30_encoding.md R61). -/

namespace Sys2Proof

/-- A command, as the byte written to CMD selects it. Every operand but WRD's count is implicit (30_encoding.md R62). -/
inductive Instr where
  /-- CRC: checksum of the span from the initial value (40_checksum.md R82). -/
  | crc
  /-- CRCC: continue the checksum from the register CRC (40_checksum.md R83). -/
  | crcc
  /-- VER: verify a span with a trailing checksum byte (40_checksum.md R84). -/
  | ver
  /-- ENC: build a command frame (41_word_frames.md R100). -/
  | enc
  /-- WRD N: decode N checksummed words; `n` is CMD[7:4] (41_word_frames.md R102). -/
  | wrd (n : Nibble)
  /-- PMD: decode a particulate frame (42_particulate.md R120). -/
  | pmd
  deriving DecidableEq, Repr

end Sys2Proof
end

