-- ==== Sys2Proof/WellFormed.lean ====
section
/-! DEFINITION. Which instructions are well formed: WRD's count is the only operand that can be out of range. -/

namespace Sys2Proof

/-- The legal group counts of WRD: "legal values 1 to 10" (30_encoding.md R62; 0 and 11 to 15 are illegal, R63). -/
def wrdCountLegal (n : Nibble) : Bool := decide (1 ≤ n.toNat) && decide (n.toNat ≤ Config.nMax)

/-- The instruction is one that a legal command byte encodes (30_encoding.md R63). -/
def Instr.wf : Instr → Bool
  | .crc => true
  | .crcc => true
  | .ver => true
  | .enc => true
  | .wrd n => wrdCountLegal n
  | .pmd => true

end Sys2Proof
end

