-- ==== Sys2Proof/Decode.lean ====
section
/-! DEFINITION. From a command byte to an instruction or a named refusal, and back (30_encoding.md R60 to R65).
Decoding is a pure function of the byte; one format, one length. -/

namespace Sys2Proof

/-- Why a command byte is illegal (30_encoding.md R63): the three cases of that rule, in its order. -/
inductive DecodeError where
  /-- OP is 0x0 or in 0x7..0xF. -/
  | reservedOp
  /-- OP is 0x1, 0x2, 0x3, 0x4 or 0x6 and ARG is not 0. -/
  | argNotZero
  /-- OP is 0x5 and ARG is 0 or at least 11. -/
  | wrdCount
  deriving DecidableEq, Repr

/-- What decoding a command byte answers. -/
inductive Decoded where
  | command (i : Instr)
  | illegal (why : DecodeError)
  deriving DecidableEq, Repr

/-- OP, bits [3:0] (30_encoding.md R60). -/
def opField (b : Byte) : Nibble := b.extractLsb' 0 4

/-- ARG, bits [7:4] (30_encoding.md R60). -/
def argField (b : Byte) : Nibble := b.extractLsb' 4 4

/-- "must be 0 for every other operation" than WRD (30_encoding.md R60). -/
def requireNoArg (arg : Nibble) (i : Instr) : Decoded :=
  if arg = 0 then .command i else .illegal .argNotZero

/-- The operation map (30_encoding.md R61), total on every byte. -/
def decode (b : Byte) : Decoded :=
  match (opField b).toNat with
  | 0x1 => requireNoArg (argField b) .crc
  | 0x2 => requireNoArg (argField b) .crcc
  | 0x3 => requireNoArg (argField b) .ver
  | 0x4 => requireNoArg (argField b) .enc
  | 0x5 => if wrdCountLegal (argField b) then .command (.wrd (argField b)) else .illegal .wrdCount
  | 0x6 => requireNoArg (argField b) .pmd
  | _ => .illegal .reservedOp

/-- The byte with these two fields (30_encoding.md R60). -/
def packFields (arg op : Nibble) : Byte := arg ++ op

/-- The encoder: the command byte of an instruction (30_encoding.md R61; WRD is `(N << 4) OR 0x05`,
41_word_frames.md R102). -/
def encode : Instr → Byte
  | .crc => packFields 0 0x1
  | .crcc => packFields 0 0x2
  | .ver => packFields 0 0x3
  | .enc => packFields 0 0x4
  | .wrd n => packFields n 0x5
  | .pmd => packFields 0 0x6

/-- The command byte of a table word: bit 0 is the byte's least significant bit, bits at and above `nbits` are 0, and a
command has 8 bits (30_encoding.md R65). -/
def tableByte (nbits w : Nat) : Byte := BitVec.ofNat 8 (w % 2 ^ nbits)

/-- The instruction that the decoder reads from a word of opcode_table.json; none where it refuses the byte. -/
def decodeTableWord (nbits w : Nat) : Option Instr :=
  match decode (tableByte nbits w) with
  | .command i => some i
  | .illegal _ => none

end Sys2Proof
end

