-- ==== Sys2Proof/Machine/State.lean ====
section
/-! DEFINITION. The state of GCFP as plain data (10_state.md R20 to R31), the reasons to stop, and reset
(70_reset_and_hazards.md R160). -/

namespace Sys2Proof.Machine

/-- One event of the host's side of the port: a transaction (20_memory.md R40) or a reset. It is the encoding of a line of
a host program (30_encoding.md R66). -/
inductive HostEvent where
  /-- `MemRead(a, 1)`: the notation's `rd A -> name`. -/
  | read (a : PortAddr)
  /-- `MemWrite(a, 1, v)`: the notation's `wr A, V`. -/
  | write (a : PortAddr) (v : Byte)
  /-- Reset between transactions (70_reset_and_hazards.md R160). -/
  | reset
  /-- `MemWrite(0x21, 1, v)` whose stall a rising reset cuts short (70_reset_and_hazards.md R162). -/
  | resetInCommand (v : Byte)
  deriving DecidableEq, Repr

/-- STATUS by its fields (10_state.md R24); the host sees `{ERRIDX, DONE, ERR}` as one byte (20_memory.md R43). -/
structure Status where
  /-- ERR, bits [2:0]: the result code of the last command. -/
  err : BitVec 3
  /-- DONE, bit [3]: a command has completed since reset. -/
  done : Bool
  /-- ERRIDX, bits [7:4]: the index of the first failing group. -/
  errIdx : Nibble
  deriving DecidableEq, Repr

/-- The bytes of BUF that the host has written since reset, as (index, byte) pairs with rising indices. A byte not listed
has not been written since reset (log 2). -/
abbrev Memory := List Host.Cell

/-- The machine: the seven registers and buffers of 10_state.md R31, then the model's own three fields. -/
structure State where
  /-- BUF: the bytes written since reset (10_state.md R21). -/
  buf : Memory
  /-- LEN: the span length (10_state.md R22). -/
  len : Byte
  /-- CMD: the last byte written to it (10_state.md R23). -/
  cmd : Byte
  /-- STATUS: the outcome of the last command (10_state.md R24). -/
  status : Status
  /-- CRC (10_state.md R25). -/
  crc : Byte
  /-- TX: the command frame output (10_state.md R26). -/
  tx : Vector Byte 3
  /-- W: the result words (10_state.md R28). -/
  w : Vector Word16 10
  /-- The model's own: how many resets have happened after the first, so that each draws new bytes for BUF (log 3). -/
  resets : Nat
  /-- The model's own: what the host presents next, oldest first (log 4). -/
  pending : List HostEvent
  /-- The model's own: the values the reads returned, oldest first (70_reset_and_hazards.md R167; log 5). -/
  reads : List Byte
  deriving DecidableEq, Repr

/-- Reasons for the machine to stop with a fault. There are none: an error "is not a trap", the machine "never stops"
(60_exceptions.md R146), and every address is decoded (20_memory.md R41). Nothing raises a fault, so nothing is unsafe
here (log 10). -/
inductive Fault where
  deriving DecidableEq, Repr

/-- Reasons for the model to refuse an instruction. -/
inductive Refusal where
  /-- Raised by an arm of `exec` for an instruction without a meaning. No arm raises it. It would be safe. -/
  | notModelled (mnemonic : String)
  deriving DecidableEq, Repr

/-- The machine right after reset (70_reset_and_hazards.md R160): LEN 0, CMD 0x00, STATUS 0x00, CRC 0xFF, TX and W zero;
no byte of BUF written, so each reads as a free value (log 1). The host has presented nothing yet. -/
def State.reset : State where
  buf := []
  len := 0x00
  cmd := 0x00
  status := { err := 0, done := false, errIdx := 0 }
  crc := 0xFF
  tx := #v[0x00, 0x00, 0x00]
  w := #v[0x0000, 0x0000, 0x0000, 0x0000, 0x0000, 0x0000, 0x0000, 0x0000, 0x0000, 0x0000]
  resets := 0
  pending := []
  reads := []

end Sys2Proof.Machine
end

