-- ==== Sys2Proof/Machine/Ops.lean ====
section
/-! DEFINITION. The named operations over BUF and the registers, and reset. Everything that reads or writes a field of
State goes through these. -/

namespace Sys2Proof.Machine

/-! ## The buffer memory -/

/-- The byte written to index `a` since reset, if there is one. -/
def Memory.get? : Memory → Nat → Option Byte
  | [], _ => none
  | (b, v) :: m, a => if b = a then some v else Memory.get? m a

/-- Write `v` at index `a`, keeping the indices rising. -/
def Memory.set : Memory → Nat → Byte → Memory
  | [], a, v => [(a, v)]
  | (b, w) :: m, a, v =>
    if a < b then (a, v) :: (b, w) :: m
    else if a = b then (a, v) :: m
    else (b, w) :: Memory.set m a v

/-- The canonical form: indices strictly rising, all of them inside BUF. An unlisted index is one that has not been
written, which no entry can equal (log 2). -/
abbrev Memory.wf (m : Memory) : Prop :=
  m.Pairwise (fun c d => c.1 < d.1) ∧ ∀ c ∈ m, c.1 < Config.bufSize

/-! ## The state, field by field (`X <- v` of 00_scope.md R10) -/

/-- `BUF[i]` (00_scope.md R10): what was written there since reset, else the free value of this reset (10_state.md R21). -/
def State.bufByte (s : State) (i : Nat) : Byte := (Memory.get? s.buf i).getD (Config.bufReset s.resets i)

/-- `BUF[i] <- v`. -/
def State.setBuf (s : State) (i : Nat) (v : Byte) : State := { s with buf := Memory.set s.buf i v }

/-- `LEN <- v`, for a value that is already legal. -/
def State.setLen (s : State) (v : Byte) : State := { s with len := v }

/-- `CMD <- v`. -/
def State.setCmd (s : State) (v : Byte) : State := { s with cmd := v }

/-- All three fields of STATUS at once, as every command writes them (10_state.md R24). -/
def State.setStatus (s : State) (v : Status) : State := { s with status := v }

/-- `CRC <- v`. -/
def State.setCrc (s : State) (v : Byte) : State := { s with crc := v }

/-- All three bytes of TX, in wire order (10_state.md R26). -/
def State.setTx (s : State) (v : Vector Byte 3) : State := { s with tx := v }

/-- `W[k] <- f k` for every `k < n`; the words from `n` up keep their values (92_eei_decisions.md D14). -/
def State.setWords (s : State) (n : Nat) (f : Nat → Word16) : State :=
  { s with w := Vector.ofFn fun k => if k.val < n then f k.val else s.w[k] }

/-- What the host presents next (log 4). -/
def State.setPending (s : State) (es : List HostEvent) : State := { s with pending := es }

/-- A read returned `v` (70_reset_and_hazards.md R167). -/
def State.pushRead (s : State) (v : Byte) : State := { s with reads := s.reads ++ [v] }

/-- The value LEN takes when the host writes `v`: `min(v, 32)` (10_state.md R22). -/
def lenClamp (v : Byte) : Byte := if v.toNat ≤ Config.bufSize then v else BitVec.ofNat 8 Config.bufSize

/-- Reset (70_reset_and_hazards.md R160): every register takes its reset value and BUF draws new free bytes. What the host
has yet to present and what its reads returned are the host's, not the block's (log 7). -/
def State.applyReset (s : State) : State :=
  { State.reset with resets := s.resets + 1, pending := s.pending, reads := s.reads }

end Sys2Proof.Machine
end

