-- ==== Sys2Proof/Machine/Flags.lean ====
section
/-! DEFINITION. STATUS: its codes (60_exceptions.md R140), ending a command with an error or without one (00_scope.md
R11), and the byte the host reads (20_memory.md R43). Raising an error is no trap (60_exceptions.md R146). -/

namespace Sys2Proof.Machine

/-- The outcomes of a command (60_exceptions.md R140). -/
inductive ErrCode where
  | ok
  | checksumMismatch
  | badFrameHeader
  | shortInput
  | illegalCommand
  deriving DecidableEq, Repr

/-- `code(E)`: the value of STATUS.ERR (60_exceptions.md R140). -/
def ErrCode.code : ErrCode → BitVec 3
  | .ok => 0
  | .checksumMismatch => 1
  | .badFrameHeader => 2
  | .shortInput => 3
  | .illegalCommand => 4

/-- `raise E(idx)` (00_scope.md R11): ERR, ERRIDX and DONE, and nothing else. -/
def State.raise (s : State) (e : ErrCode) (idx : Nat) : State :=
  s.setStatus { err := e.code, done := true, errIdx := BitVec.ofNat 4 idx }

/-- `finish()` (00_scope.md R11). -/
def State.finish (s : State) : State :=
  s.setStatus { err := ErrCode.ok.code, done := true, errIdx := 0 }

/-- STATUS as the host reads it: `{ERRIDX, DONE, ERR}` (20_memory.md R43). -/
def Status.toByte (st : Status) : Byte := st.errIdx ++ BitVec.ofBool st.done ++ st.err

end Sys2Proof.Machine
end

