-- ==== Sys2Proof/Machine/Checksum.lean ====
section
/-! DEFINITION. The checksum function (40_checksum.md R80): pure, and shared by all commands. -/

namespace Sys2Proof.Machine

/-- One of the eight shifts: the high bit is tested before the shift and discarded by it (40_checksum.md R80). -/
def crcShift (c : Byte) : Byte :=
  if c.getLsbD 7 then (c <<< 1) ^^^ Config.crcPoly else c <<< 1

/-- `crcShift` done `k` times. -/
def crcShifts : Nat → Byte → Byte
  | 0, c => c
  | k + 1, c => crcShifts k (crcShift c)

/-- `crc8_step` (40_checksum.md R80). -/
def crc8Step (c b : Byte) : Byte := crcShifts 8 (c ^^^ b)

/-- `crc8(init, bytes)` (40_checksum.md R80). -/
def crc8 (init : Byte) : List Byte → Byte
  | [] => init
  | b :: rest => crc8 (crc8Step init b) rest

/-- `compute(bytes) = crc8(0xFF, bytes)` (00_scope.md R12). -/
def compute (bytes : List Byte) : Byte := crc8 Config.crcInit bytes

end Sys2Proof.Machine
end

