-- ==== Sys2Proof/Machine/Operands.lean ====
section
/-! DEFINITION. The implicit operands of the commands (30_encoding.md R62): spans, groups and particulate fields of BUF. -/

namespace Sys2Proof.Machine

/-- `be16(hi, lo) = {hi, lo}` (41_word_frames.md R101). -/
def be16 (hi lo : Byte) : Word16 := hi ++ lo

/-- The high byte of a word (20_memory.md R44). -/
def hiByte (x : Word16) : Byte := x.extractLsb' 8 8

/-- The low byte of a word (20_memory.md R44). -/
def loByte (x : Word16) : Byte := x.extractLsb' 0 8

/-- `BUF[0..n)` (00_scope.md R10). -/
def State.bufTo (s : State) (n : Nat) : List Byte := (List.range n).map s.bufByte

/-- The span `BUF[0..LEN)` (00_scope.md R13). -/
def State.span (s : State) : List Byte := s.bufTo s.len.toNat

/-- VER's payload `BUF[0..LEN-1)` (40_checksum.md R84). -/
def State.payload (s : State) : List Byte := s.bufTo (s.len.toNat - 1)

/-- VER's trailing checksum byte `BUF[LEN-1]` (40_checksum.md R84). -/
def State.trailer (s : State) : Byte := s.bufByte (s.len.toNat - 1)

/-- The payload of group `g`: `[BUF[3g], BUF[3g+1]]` (41_word_frames.md R102). -/
def State.groupPayload (s : State) (g : Nat) : List Byte :=
  [s.bufByte (Config.groupLen * g), s.bufByte (Config.groupLen * g + 1)]

/-- The checksum byte of group `g`: `BUF[3g+2]`. -/
def State.groupCheck (s : State) (g : Nat) : Byte := s.bufByte (Config.groupLen * g + 2)

/-- Group `g` is valid: its third byte is the checksum of its first two (30_encoding.md R70). -/
def State.groupValid (s : State) (g : Nat) : Bool := compute (s.groupPayload g) == s.groupCheck g

/-- The word group `g` carries (30_encoding.md R70). -/
def State.groupWord (s : State) (g : Nat) : Word16 :=
  be16 (s.bufByte (Config.groupLen * g)) (s.bufByte (Config.groupLen * g + 1))

/-- The lowest failing group of the first `n`, examined in increasing order (41_word_frames.md R102). -/
def State.firstBadGroup (s : State) (n : Nat) : Option Nat :=
  (List.range n).find? fun g => !s.groupValid g

/-- The particulate header is 0x42 0x4D, checked byte by byte (42_particulate.md R120). -/
def State.magicValid (s : State) : Bool :=
  s.bufByte 0 == Config.pmMagic0 && s.bufByte 1 == Config.pmMagic1

/-- Particulate field `k`: `be16(BUF[0x0A + 2k], BUF[0x0B + 2k])` (42_particulate.md R120, 30_encoding.md R73). -/
def State.pmField (s : State) (k : Nat) : Word16 :=
  be16 (s.bufByte (Config.pmFieldBase + 2 * k)) (s.bufByte (Config.pmFieldBase + 1 + 2 * k))

end Sys2Proof.Machine
end

