-- ==== Sys2Proof/Machine/Codec.lean ====
section
/-! DEFINITION. The commands of the checksum codec: CRC, CRCC, VER (40_checksum.md). -/

namespace Sys2Proof.Machine

/-- CRC (40_checksum.md R82): the old value of CRC is never read. -/
def execCrc (s : State) : Host.Outcome State Fault Refusal :=
  .next (s.setCrc (crc8 Config.crcInit s.span)).finish

/-- CRCC (40_checksum.md R83): continue from the register CRC. -/
def execCrcc (s : State) : Host.Outcome State Fault Refusal :=
  .next (s.setCrc (crc8 s.crc s.span)).finish

/-- VER (40_checksum.md R84): CRC is written on a mismatch too. -/
def execVer (s : State) : Host.Outcome State Fault Refusal :=
  .next <|
    if s.len.toNat < 1 then s.raise .shortInput 0
    else
      let c := crc8 Config.crcInit s.payload
      if c ≠ s.trailer then (s.setCrc c).raise .checksumMismatch 0
      else (s.setCrc c).finish

end Sys2Proof.Machine
end

