-- ==== Sys2Proof/Machine/Particulate.lean ====
section
/-! DEFINITION. The particulate frame decoder: PMD (42_particulate.md). -/

namespace Sys2Proof.Machine

/-- PMD (42_particulate.md R120): only the header is validated; bytes 0x02..0x09 and 0x1C..0x1F play no part (R121). -/
def execPmd (s : State) : Host.Outcome State Fault Refusal :=
  .next <|
    if s.len.toNat < Config.pmFrameLen then s.raise .shortInput 0
    else if !s.magicValid then s.raise .badFrameHeader 0
    else (s.setWords Config.pmFieldCount s.pmField).finish

end Sys2Proof.Machine
end

