-- ==== Sys2Proof/Machine/WordFrames.lean ====
section
/-! DEFINITION. The commands of command frames and word frames: ENC, WRD (41_word_frames.md). -/

namespace Sys2Proof.Machine

/-- ENC (41_word_frames.md R100): any 16-bit value is accepted, and bytes from `BUF[2]` on are ignored. -/
def execEnc (s : State) : Host.Outcome State Fault Refusal :=
  .next <|
    if s.len.toNat < 2 then s.raise .shortInput 0
    else
      let hi := s.bufByte 0
      let lo := s.bufByte 1
      (s.setTx #v[hi, lo, crc8 Config.crcInit [hi, lo]]).finish

/-- WRD N (41_word_frames.md R102). A count that no legal command byte carries never comes from the decoder; the meaning
answers it as a CMD write of its byte would be answered (60_exceptions.md R144; log 11). -/
def execWrd (n : Nibble) (s : State) : Host.Outcome State Fault Refusal :=
  .next <|
    if n.toNat = 0 ∨ Config.nMax < n.toNat then s.raise .illegalCommand 0
    else if s.len.toNat < Config.groupLen * n.toNat then s.raise .shortInput 0
    else
      match s.firstBadGroup n.toNat with
      | some g => s.raise .checksumMismatch g
      | none => (s.setWords n.toNat s.groupWord).finish

end Sys2Proof.Machine
end

