-- ==== Sys2Proof/Machine/Dispatch.lean ====
section
/-! DEFINITION. One arm per command, each one call of its meaning. -/

namespace Sys2Proof.Machine

-- The state is the one in which CMD already holds the command byte (10_state.md R23).
def exec (i : Instr) (s : State) : Host.Outcome State Fault Refusal :=
  match i with
  | .crc => Sys2Proof.Machine.execCrc s
  | .crcc => Sys2Proof.Machine.execCrcc s
  | .ver => Sys2Proof.Machine.execVer s
  | .enc => Sys2Proof.Machine.execEnc s
  | .wrd n => Sys2Proof.Machine.execWrd n s
  | .pmd => Sys2Proof.Machine.execPmd s

end Sys2Proof.Machine
end

