-- ==== Sys2Proof/Machine/HostPort.lean ====
section
/-! DEFINITION. The host port: the register space map and its access semantics (20_memory.md R40 to R45), and what one host
event does. -/

namespace Sys2Proof.Machine

/-- `MemRead(a, 1)` (20_memory.md R42 to R45). Every address is decoded, and no read has a side effect (R41). -/
def hostRead (s : State) (a : PortAddr) : Byte :=
  let n := a.toNat
  if n < 0x20 then s.bufByte n
  else if n = 0x20 then s.len
  else if n = 0x21 then s.cmd
  else if n = 0x22 then s.status.toByte
  else if n = 0x23 then s.crc
  else if h : 0x24 ≤ n ∧ n < 0x27 then s.tx[n - 0x24]
  else if h : 0x28 ≤ n ∧ n < 0x3C then
    if n % 2 = 0 then hiByte s.w[(n - 0x28) / 2] else loByte s.w[(n - 0x28) / 2]
  else 0x00

/-- A write of `v` to CMD (10_state.md R23): CMD holds `v`, then command `v` executes; an illegal byte raises
ILLEGAL_COMMAND and changes nothing else but STATUS (30_encoding.md R63, 60_exceptions.md R144). -/
def runCommand (v : Byte) (s : State) : Host.Outcome State Fault Refusal :=
  match decode v with
  | .command i => exec i (s.setCmd v)
  | .illegal _ => .next ((s.setCmd v).raise .illegalCommand 0)

/-- `MemWrite(a, 1, v)` (20_memory.md R42 to R45): writes to STATUS, TX, W and the reserved addresses have no effect. -/
def hostWrite (a : PortAddr) (v : Byte) (s : State) : Host.Outcome State Fault Refusal :=
  if a.toNat < 0x20 then .next (s.setBuf a.toNat v)
  else if a.toNat = 0x20 then .next (s.setLen (lenClamp v))
  else if a.toNat = 0x21 then runCommand v s
  else if a.toNat = 0x23 then .next (s.setCrc v)
  else .next s

/-- One host event (20_memory.md R47: each takes effect whole before the next). A reset that cuts a stalled command short
leaves no trace of the command (70_reset_and_hazards.md R162). -/
def applyEvent (e : HostEvent) (s : State) : Host.Outcome State Fault Refusal :=
  match e with
  | .read a => .next (s.pushRead (hostRead s a))
  | .write a v => hostWrite a v s
  | .reset => .next s.applyReset
  | .resetInCommand _ => .next s.applyReset

/-- The host's next event takes effect. With none, the block "does nothing" (60_exceptions.md R153; log 6). -/
def takeEvent (s : State) : Host.Outcome State Fault Refusal :=
  match s.pending with
  | [] => .next s
  | e :: rest => applyEvent e (s.setPending rest)

/-- The host event that runs a word of opcode_table.json: a write of its byte to CMD (10_state.md R23). -/
def commandEvent (nbits w : Nat) : HostEvent := .write 0x21 (tableByte nbits w)

end Sys2Proof.Machine
end

