-- ==== Sys2Proof/Machine/Step.lean ====
section
/-! DEFINITION. The step: one host event takes effect (10_state.md R27: "indexed by the host access, not by an address"). -/

namespace Sys2Proof.Machine

/-- One step of the machine. -/
def step (s : State) : Host.Outcome State Fault Refusal := takeEvent s

/-- `s` with the host presenting a CMD write of this word as its next event, so that the next step runs it. A program comes
to run from `State.reset` by the events that the host presents (log 4). -/
def State.withFetchWord (s : State) (nbits w : Nat) : State := s.setPending (commandEvent nbits w :: s.pending)

end Sys2Proof.Machine
end

