-- ==== Sys2Proof/Machine/HostProgram.lean ====
section
/-! DEFINITION. The pseudo-instructions of host programs and their expansions into port transactions (30_encoding.md
R67). They are notation of the host's: each is a list of host events. -/

namespace Sys2Proof.Machine

/-- A pseudo-instruction (30_encoding.md R67). The names its reads bind are the values `State.reads` gains. -/
inductive Pseudo where
  | crc
  | crcc
  | ver
  | enc
  | wrd (n : Nat)
  | pmd
  | load (bs : List Byte)
  | setcrc (v : Byte)
  | rdstatus
  | rdw (k : Nat)
  | rdtx
  deriving DecidableEq, Repr

/-- The ranges of the operands (30_encoding.md R67): 1 <= N <= 10, at most 32 bytes, 0 <= k <= 9. -/
def Pseudo.wf : Pseudo → Bool
  | .wrd n => decide (1 ≤ n) && decide (n ≤ Config.nMax)
  | .load bs => decide (bs.length ≤ Config.bufSize)
  | .rdw k => decide (k ≤ 9)
  | _ => true

/-- The BUF writes of `load`: `wr a, b0`, `wr (a+1), b1` and so on. -/
def loadWrites (a : Nat) : List Byte → List HostEvent
  | [] => []
  | b :: bs => .write (BitVec.ofNat 6 a) b :: loadWrites (a + 1) bs

/-- The expansions (30_encoding.md R67). `load` writes LEN last. -/
def Pseudo.expand : Pseudo → List HostEvent
  | .crc => [.write 0x21 0x01]
  | .crcc => [.write 0x21 0x02]
  | .ver => [.write 0x21 0x03]
  | .enc => [.write 0x21 0x04]
  | .wrd n => [.write 0x21 (BitVec.ofNat 8 ((n <<< 4) ||| 0x05))]
  | .pmd => [.write 0x21 0x06]
  | .load bs => loadWrites 0 bs ++ [.write 0x20 (BitVec.ofNat 8 bs.length)]
  | .setcrc v => [.write 0x23 v]
  | .rdstatus => [.read 0x22]
  | .rdw k => [.read (BitVec.ofNat 6 (0x28 + 2 * k)), .read (BitVec.ofNat 6 (0x29 + 2 * k))]
  | .rdtx => [.read 0x24, .read 0x25, .read 0x26]

/-- The events of a host program written in pseudo-instructions, in program order. -/
def Pseudo.expandAll (ps : List Pseudo) : List HostEvent := ps.flatMap Pseudo.expand

/-- The computation of a checksum chunk by chunk (40_checksum.md R83): the first chunk by CRC, each later one by CRCC. -/
def chunkProgram (c : List Byte) (cs : List (List Byte)) : List Pseudo :=
  .load c :: .crc :: cs.flatMap fun d => [.load d, .crcc]

end Sys2Proof.Machine
end

