-- ==== Sys2Proof/Safety.lean ====
section
/-! DEFINITION. What the claims speak of: the invariant of the reachable states, and runs of host events. -/

namespace Sys2Proof.Machine

/-- TX is zero or a frame whose third byte is the checksum of its first two: "TX always holds the frame of the last
successful ENC, or 00 00 00 if none has run since reset" (41_word_frames.md R100). -/
def State.TxIsFrame (s : State) : Prop :=
  s.tx = #v[0x00, 0x00, 0x00] ∨ s.tx[2] = compute [s.tx[0], s.tx[1]]

/-- STATUS is an outcome that the command CMD names can report (60_exceptions.md R140 to R144; 10_state.md R24). -/
def State.StatusOfCmd (s : State) : Prop :=
  match decode s.cmd with
  | .illegal _ => s.status = { err := 4, done := true, errIdx := 0 }
  | .command .crc => s.status = { err := 0, done := true, errIdx := 0 }
  | .command .crcc => s.status = { err := 0, done := true, errIdx := 0 }
  | .command .ver => s.status.err ∈ [0, 1, 3] ∧ s.status.errIdx = 0
  | .command .enc => s.status.err ∈ [0, 3] ∧ s.status.errIdx = 0
  | .command (.wrd n) =>
    s.status.err ∈ [0, 1, 3] ∧ (s.status.err ≠ 1 → s.status.errIdx = 0) ∧ s.status.errIdx < n
  | .command .pmd => s.status.err ∈ [0, 2, 3] ∧ s.status.errIdx = 0

/-- No command has completed since reset: what only commands write still holds its reset value (10_state.md R23, R24, R26,
R28). -/
def State.NoCommandYet (s : State) : Prop :=
  s.cmd = 0x00 ∧ s.status = State.reset.status ∧ s.tx = State.reset.tx ∧ s.w = State.reset.w

/-- What holds of every state that a run reaches: LEN is legal (10_state.md R22), TX is zero or a frame, STATUS speaks of the
command in CMD once one has completed, and before that CMD, STATUS, TX and W hold their reset values. That BUF's cells are
in canonical form is the model's own clause, DESIGN CHOICE (log 2). -/
structure State.Inv (s : State) : Prop where
  /-- The model's own: the canonical form of the list that holds BUF (log 2). -/
  bufWf : Memory.wf s.buf
  lenLegal : s.len.toNat ≤ Config.bufSize
  txFrame : s.TxIsFrame
  afterCommand : s.status.done = true → s.StatusOfCmd
  beforeCommand : s.status.done = false → s.NoCommandYet

/-- The block's registers hold the values 70_reset_and_hazards.md R160 lists, and no byte of BUF has been written. -/
structure State.AtResetValues (s : State) : Prop where
  buf : s.buf = []
  len : s.len = 0x00
  cmd : s.cmd = 0x00
  status : s.status.toByte = 0x00
  crc : s.crc = 0xFF
  tx : ∀ k : Fin 3, s.tx[k] = 0x00
  w : ∀ k : Fin 10, s.w[k] = 0x0000

/-- The bytes a command needs (60_exceptions.md R142). -/
def bytesNeeded : Instr → Nat
  | .crc => 0
  | .crcc => 0
  | .ver => 1
  | .enc => 2
  | .wrd n => 3 * n.toNat
  | .pmd => 32

/-- A command's content check fails with this code and index (60_exceptions.md R145, item 3): the trailing byte for VER,
the groups in increasing index for WRD, the header for PMD. -/
def ContentFails : Instr → State → BitVec 3 → Nat → Prop
  | .crc, _, _, _ => False
  | .crcc, _, _, _ => False
  | .ver, s, e, g => e = 1 ∧ g = 0 ∧ compute s.payload ≠ s.trailer
  | .enc, _, _, _ => False
  | .wrd n, s, e, g =>
    e = 1 ∧ g < n.toNat ∧ compute (s.groupPayload g) ≠ s.groupCheck g ∧
      ∀ h < g, compute (s.groupPayload h) = s.groupCheck h
  | .pmd, s, e, g => e = 2 ∧ g = 0 ∧ (s.bufByte 0 ≠ 0x42 ∨ s.bufByte 1 ≠ 0x4D)

/-- `k` steps, stopping at the first fault or refusal (it is `Host.Core.run` of `Sys2Proof.core`: `runSteps_eq_core_run`). -/
def runSteps : Nat → State → Host.Outcome State Fault Refusal
  | 0, s => .next s
  | k + 1, s =>
    match step s with
    | .next t => runSteps k t
    | .fault r => .fault r
    | .refused r => .refused r

/-- The host presents exactly `es`, and each of them takes effect, one step each (70_reset_and_hazards.md R167). -/
def runEvents (es : List HostEvent) (s : State) : Host.Outcome State Fault Refusal :=
  runSteps es.length (s.setPending es)

end Sys2Proof.Machine
end

