-- ==== Sys2Proof/Certificates/Slice0/Obligations.lean ====
section
/-! DEFINITION. The statements for the provers, from the numbered rules of spec/. In each, `{ s with … }` is the whole next
state: every field not named keeps its value.

A host transaction is the first event of `pending`, and a value that a read returns is appended to `reads`: these two
fields are the model's own way of writing down the port (log 4, log 5). No statement rests on a value of the free bytes of
BUF (log 1). -/

open Sys2Proof Sys2Proof.Machine

/-! ## Reset (70_reset_and_hazards.md) -/

/-- R160: the state after power-on and the state after a reset event hold the listed values. That a reset draws new free
bytes (`resets`), and that the host's pending events and the values its reads returned outlast it, are the model's choices
(log 3, log 7). -/
def Obligations.ResetGivesTheListedValues : Prop :=
  State.reset.AtResetValues ∧
  ∀ (s : State) (rest : List HostEvent), s.pending = .reset :: rest →
    ∃ t, step s = .next t ∧ t.AtResetValues ∧
      t.resets = s.resets + 1 ∧ t.pending = rest ∧ t.reads = s.reads

/-- R162: a reset during a stalled CMD write leaves the reset values and no trace of the command: the state is the one a
reset between transactions gives. -/
def Obligations.ResetDuringCommandAbandonsIt : Prop :=
  ∀ (s : State) (v : Byte) (rest : List HostEvent), s.pending = .resetInCommand v :: rest →
    ∃ t, step s = .next t ∧ t.AtResetValues ∧ step { s with pending := .reset :: rest } = .next t

/-! ## The host port (20_memory.md) -/

/-- R42: reads and writes of BUF. -/
def Obligations.BufferReadsAndWrites : Prop :=
  ∀ (s : State) (a : PortAddr) (rest : List HostEvent), a.toNat ≤ 0x1F →
    (s.pending = .read a :: rest →
      step s = .next { s with pending := rest, reads := s.reads ++ [s.bufByte a.toNat] }) ∧
    ∀ v, s.pending = .write a v :: rest →
      ∃ t, step s = .next t ∧ t.bufByte a.toNat = v ∧ (∀ j, j ≠ a.toNat → t.bufByte j = s.bufByte j) ∧
        t = { s with pending := rest, buf := t.buf }

/-- R43: reads and writes of LEN, CMD, STATUS, CRC and TX. -/
def Obligations.ControlRegisterReadsAndWrites : Prop :=
  ∀ (s : State) (rest : List HostEvent),
    (∀ a v, ((a = 0x20 ∧ v = s.len) ∨ (a = 0x21 ∧ v = s.cmd) ∨
        (a = 0x22 ∧ v = BitVec.ofNat 8 (16 * s.status.errIdx.toNat + 8 * s.status.done.toNat + s.status.err.toNat)) ∨
        (a = 0x23 ∧ v = s.crc) ∨ ∃ k : Fin 3, a = BitVec.ofNat 6 (0x24 + k.val) ∧ v = s.tx[k]) →
      s.pending = .read a :: rest → step s = .next { s with pending := rest, reads := s.reads ++ [v] }) ∧
    (∀ v, s.pending = .write 0x20 v :: rest →
      step s = .next { s with pending := rest, len := BitVec.ofNat 8 (min v.toNat 32) }) ∧
    (∀ v i, s.pending = .write 0x21 v :: rest → decode v = .command i →
      step s = exec i { s with pending := rest, cmd := v }) ∧
    (∀ v why, s.pending = .write 0x21 v :: rest → decode v = .illegal why →
      step s = .next { s with pending := rest, cmd := v, status := { err := 4, done := true, errIdx := 0 } }) ∧
    (∀ v, s.pending = .write 0x23 v :: rest → step s = .next { s with pending := rest, crc := v }) ∧
    ∀ a v, a ∈ [(0x22 : PortAddr), 0x24, 0x25, 0x26] → s.pending = .write a v :: rest →
      step s = .next { s with pending := rest }

/-- R44: the result words are read high byte first, and writes to them have no effect. -/
def Obligations.ResultWordReadsAndWrites : Prop :=
  ∀ (s : State) (rest : List HostEvent),
    (∀ k : Fin 10,
      (s.pending = .read (BitVec.ofNat 6 (0x28 + 2 * k.val)) :: rest →
        step s = .next { s with pending := rest, reads := s.reads ++ [BitVec.ofNat 8 (s.w[k].toNat / 256)] }) ∧
      (s.pending = .read (BitVec.ofNat 6 (0x29 + 2 * k.val)) :: rest →
        step s = .next { s with pending := rest, reads := s.reads ++ [BitVec.ofNat 8 (s.w[k].toNat % 256)] })) ∧
    ∀ a v, 0x28 ≤ a.toNat → a.toNat ≤ 0x3B → s.pending = .write a v :: rest →
      step s = .next { s with pending := rest }

/-- R45: the reserved addresses read 0x00 and ignore writes. -/
def Obligations.ReservedAddressesReadZeroIgnoreWrites : Prop :=
  ∀ (s : State) (a : PortAddr) (rest : List HostEvent), a.toNat = 0x27 ∨ 0x3C ≤ a.toNat →
    (s.pending = .read a :: rest → step s = .next { s with pending := rest, reads := s.reads ++ [0x00] }) ∧
    ∀ v, s.pending = .write a v :: rest → step s = .next { s with pending := rest }

/-- R22, as the host sees it: LEN reads back as min(v, 32). -/
def Obligations.LenReadsBackClamped : Prop :=
  ∀ (s : State) (v : Byte), ∃ t, runEvents [.write 0x20 v, .read 0x20] s = .next t ∧
    t.reads = s.reads ++ [BitVec.ofNat 8 (min v.toNat 32)] ∧ t.len.toNat = min v.toNat 32

/-- R51 for BUF: a read returns the value of the latest earlier write to that byte, whatever other transactions and
commands come between, as long as no reset does. -/
def Obligations.BufferReadReturnsLatestWrite : Prop :=
  ∀ (s : State) (a : PortAddr) (v : Byte) (es : List HostEvent), a.toNat ≤ 0x1F →
    (∀ e ∈ es, e ≠ .reset ∧ (∀ x, e ≠ .resetInCommand x) ∧ ∀ x, e ≠ .write a x) →
    ∃ t, runEvents (.write a v :: es ++ [.read a]) s = .next t ∧ t.reads.getLast? = some v

/-- R50: whatever events stand between the two reads of a result word, the first read gives the high byte of the word before
them and the second the low byte of the word after them, so a command between them can tear the word. When none of the
events between is a write to CMD or a reset, the two bytes are those of one word and W is as before. -/
def Obligations.ResultWordReadPairAndTearing : Prop :=
  ∀ (s : State) (k : Fin 10) (es : List HostEvent),
    ∃ t seen hi lo,
      runEvents (.read (BitVec.ofNat 6 (0x28 + 2 * k.val)) :: es ++ [.read (BitVec.ofNat 6 (0x29 + 2 * k.val))]) s =
        .next t ∧
      t.reads = s.reads ++ hi :: seen ++ [lo] ∧ hi = hiByte s.w[k] ∧ lo = loByte t.w[k] ∧
      ((∀ e ∈ es, e ≠ .reset ∧ (∀ v, e ≠ .resetInCommand v) ∧ ∀ v, e ≠ .write 0x21 v) →
        be16 hi lo = s.w[k] ∧ t.w = s.w)

/-! ## Commands: encoding and dispatch (30_encoding.md) -/

/-- A step that takes a CMD write runs the decoded command in the state in which the event is consumed and CMD holds the
byte; an illegal byte raises ILLEGAL_COMMAND. With nothing presented, the state stays (log 6). -/
def Obligations.StepRunsTheDecodedCommand : Prop :=
  (∀ (s : State) (v : Byte) (i : Instr) (rest : List HostEvent), s.pending = .write 0x21 v :: rest →
    decode v = .command i → step s = exec i { s with pending := rest, cmd := v }) ∧
  (∀ (s : State) (v : Byte) (why : DecodeError) (rest : List HostEvent), s.pending = .write 0x21 v :: rest →
    decode v = .illegal why →
      step s = .next { s with pending := rest, cmd := v, status := { err := 4, done := true, errIdx := 0 } }) ∧
  (∀ (s : State) (i : Instr), i.wf = true →
    step (s.withFetchWord 8 (encode i).toNat) = exec i { s with cmd := encode i }) ∧
  ∀ s : State, s.pending = [] → step s = .next s

/-- Decoding inverts encoding on the well-formed instructions, and each legal byte has one meaning. -/
def Obligations.DecodeAndEncodeAgree : Prop :=
  ∀ (b : Byte) (i : Instr), decode b = .command i ↔ i.wf = true ∧ encode i = b

/-- Command bytes written out from R61's table decode to their commands; neighbours are refused by name. -/
def Obligations.WrittenOutBytesDecode : Prop :=
  decode 0b00000001 = .command .crc ∧ decode 0b00000010 = .command .crcc ∧ decode 0b00000011 = .command .ver ∧
  decode 0b00000100 = .command .enc ∧ decode 0b00110101 = .command (.wrd 3) ∧
  decode 0b10100101 = .command (.wrd 10) ∧ decode 0b00000110 = .command .pmd ∧
  decode 0b00000000 = .illegal .reservedOp ∧ decode 0b00010001 = .illegal .argNotZero ∧
  decode 0b10110101 = .illegal .wrdCount

/-- R63 and R144: which bytes are illegal, and that an illegal CMD write changes nothing but STATUS and CMD. -/
def Obligations.IllegalBytesRaiseIllegalCommand : Prop :=
  (∀ v : Byte,
    ((v.toNat % 16 = 0 ∨ 7 ≤ v.toNat % 16) ∨
      (v.toNat % 16 ∈ [1, 2, 3, 4, 6] ∧ v.toNat / 16 ≠ 0) ∨
      (v.toNat % 16 = 5 ∧ (v.toNat / 16 = 0 ∨ 11 ≤ v.toNat / 16)) ↔
      ∃ why, decode v = .illegal why) ∧
    ((∃ i, decode v = .command i) ↔
      v ∈ [(0x01 : Byte), 0x02, 0x03, 0x04, 0x06, 0x15, 0x25, 0x35, 0x45, 0x55, 0x65, 0x75, 0x85, 0x95, 0xA5])) ∧
  ((List.range 256).countP fun k =>
    match decode (BitVec.ofNat 8 k) with
    | .command _ => true
    | .illegal _ => false) = 15 ∧
  ((List.range 256).countP fun k =>
    match decode (BitVec.ofNat 8 k) with
    | .command _ => false
    | .illegal _ => true) = 241 ∧
  ∀ (s : State) (v : Byte) (why : DecodeError) (rest : List HostEvent), s.pending = .write 0x21 v :: rest →
    decode v = .illegal why →
      step s = .next { s with pending := rest, cmd := v, status := { err := 4, done := true, errIdx := 0 } }

/-- A WRD whose count no legal byte carries answers as an illegal command does. The decoder never gives one; this is the
model's reading of such a term (log 11). -/
def Obligations.IllegalWrdCountAnswersIllegalCommand : Prop :=
  ∀ (s : State) (n : Nibble), n.toNat = 0 ∨ 11 ≤ n.toNat →
    exec (.wrd n) s = .next { s with status := { err := 4, done := true, errIdx := 0 } }

/-! ## The checksum function (40_checksum.md R80, R81) -/

/-- R80: the recursion over bytes, the eight shifts of a step, and the reference vector. -/
def Obligations.ChecksumFollowsThePseudocode : Prop :=
  (∀ c b : Byte, crc8Step c b =
    (fun c : Byte => BitVec.ofNat 8 (2 * c.toNat) ^^^ if 128 ≤ c.toNat then 0x31 else 0x00)^[8] (c ^^^ b)) ∧
  (∀ i : Byte, crc8 i [] = i) ∧
  (∀ (i b : Byte) (rest : List Byte), crc8 i (b :: rest) = crc8 (crc8Step i b) rest) ∧
  (∀ bytes : List Byte, compute bytes = crc8 0xFF bytes) ∧
  compute [0xBE, 0xEF] = 0x92

/-- R81 (a), (b), (c): the empty span, chaining, and the residue of a span with its own checksum. -/
def Obligations.ChecksumChainsAndHasZeroResidue : Prop :=
  ∀ (i : Byte) (a b : List Byte),
    crc8 i [] = i ∧ compute [] = 0xFF ∧ crc8 i (a ++ b) = crc8 (crc8 i a) b ∧ crc8 i (a ++ [crc8 i a]) = 0x00

/-- R81 (d): the checksum is linear over GF(2), and changing one bit of a span changes it. -/
def Obligations.ChecksumIsLinearAndSeesOneBit : Prop :=
  (∀ (i : Byte) (x y : List Byte), x.length = y.length →
    crc8 i x ^^^ crc8 i y = crc8 0x00 (List.zipWith (· ^^^ ·) x y)) ∧
  (∀ (p q : Nat) (k : Fin 8),
    crc8 0x00 (List.replicate p 0x00 ++ [1#8 <<< k.val] ++ List.replicate q 0x00) ≠ 0x00) ∧
  ∀ (i : Byte) (x : List Byte) (j : Fin x.length) (k : Fin 8),
    crc8 i (x.set j.val (x[j] ^^^ 1#8 <<< k.val)) ≠ crc8 i x

/-- R81 (e): over the two-byte payloads every checksum value occurs exactly 256 times. -/
def Obligations.ChecksumOfTwoBytesIsUniform : Prop :=
  ∀ v : Byte, (Finset.univ.filter fun p : Fin (2 ^ 8) × Fin (2 ^ 8) =>
    compute [BitVec.ofFin p.1, BitVec.ofFin p.2] = v).card = 256

/-! ## The commands of the codec (40_checksum.md) -/

/-- R82: CRC computes the checksum of the span from 0xFF, whatever the register CRC holds. -/
def Obligations.CrcChecksumsTheSpan : Prop :=
  decode 0x01 = .command .crc ∧
  ∀ s : State,
    exec .crc s = .next { s with
      crc := crc8 0xFF ((List.range s.len.toNat).map s.bufByte)
      status := { err := 0, done := true, errIdx := 0 } } ∧
    (∀ x, exec .crc { s with crc := x } = exec .crc s) ∧
    (s.len = 0 → exec .crc s = .next { s with crc := 0xFF, status := { err := 0, done := true, errIdx := 0 } }) ∧
    (∀ p, (List.range s.len.toNat).map s.bufByte = p ++ [compute p] →
      exec .crc s = .next { s with crc := 0x00, status := { err := 0, done := true, errIdx := 0 } }) ∧
    (s.len = 2 → s.bufByte 0 = 0xBE → s.bufByte 1 = 0xEF →
      exec .crc s = .next { s with crc := 0x92, status := { err := 0, done := true, errIdx := 0 } })

/-- R83: CRCC continues from the register CRC, and so extends the checksum of what came before by the span. A host program
that loads a byte list chunk by chunk, runs CRC on the first chunk and CRCC on each later one, computes the checksum of
the whole list, of any length. -/
def Obligations.CrccContinuesTheChecksum : Prop :=
  decode 0x02 = .command .crcc ∧
  (∀ s : State,
    exec .crcc s = .next { s with
      crc := crc8 s.crc ((List.range s.len.toNat).map s.bufByte)
      status := { err := 0, done := true, errIdx := 0 } } ∧
    (s.len = 0 → exec .crcc s = .next { s with status := { err := 0, done := true, errIdx := 0 } }) ∧
    (s.crc = 0xFF → exec .crcc s = exec .crc s) ∧
    (∀ p, s.crc = compute p →
      exec .crcc s = .next { s with
        crc := compute (p ++ (List.range s.len.toNat).map s.bufByte)
        status := { err := 0, done := true, errIdx := 0 } })) ∧
  (∀ s u : State, s.len = 1 → s.bufByte 0 = 0xBE → u.len = 1 → u.bufByte 0 = 0xEF →
    ∃ t, exec .crc s = .next t ∧ t.crc = 0x0C ∧
      (u.crc = t.crc → ∃ z, exec .crcc u = .next z ∧ z.crc = 0x92)) ∧
  ∀ (s : State) (c : List Byte) (cs : List (List Byte)), c.length ≤ 32 → (∀ d ∈ cs, d.length ≤ 32) →
    ∃ t, runEvents (Pseudo.expandAll (chunkProgram c cs)) s = .next t ∧
      t.crc = compute (c ++ cs.flatten) ∧ t.status = { err := 0, done := true, errIdx := 0 } ∧
      t.tx = s.tx ∧ t.w = s.w ∧ t.reads = s.reads

/-- R84: VER compares the trailing byte with the checksum of the payload, and writes CRC whenever LEN >= 1. -/
def Obligations.VerChecksTheTrailingByte : Prop :=
  decode 0x03 = .command .ver ∧
  (∀ s : State,
    (s.len = 0 → exec .ver s = .next { s with status := { err := 3, done := true, errIdx := 0 } }) ∧
    (∀ c, 1 ≤ s.len.toNat → c = crc8 0xFF ((List.range (s.len.toNat - 1)).map s.bufByte) →
      (c = s.bufByte (s.len.toNat - 1) →
        exec .ver s = .next { s with crc := c, status := { err := 0, done := true, errIdx := 0 } }) ∧
      (c ≠ s.bufByte (s.len.toNat - 1) →
        exec .ver s = .next { s with crc := c, status := { err := 1, done := true, errIdx := 0 } })) ∧
    (s.len = 1 → s.bufByte 0 = 0xFF →
      exec .ver s = .next { s with crc := 0xFF, status := { err := 0, done := true, errIdx := 0 } }) ∧
    (s.len = 1 → s.bufByte 0 ≠ 0xFF →
      exec .ver s = .next { s with crc := 0xFF, status := { err := 1, done := true, errIdx := 0 } }) ∧
    (s.len = 3 → ∃ t u, exec .ver s = .next t ∧ exec (.wrd 1) s = .next u ∧ t.status = u.status ∧ t.w = s.w ∧
      u.crc = s.crc)) ∧
  ∀ s : State, s.len = 3 → s.bufByte 0 = 0xBE → s.bufByte 1 = 0xEF →
    (s.bufByte 2 = 0x92 →
      exec .ver s = .next { s with crc := 0x92, status := { err := 0, done := true, errIdx := 0 } }) ∧
    (s.bufByte 2 = 0x93 →
      exec .ver s = .next { s with crc := 0x92, status := { err := 1, done := true, errIdx := 0 } })

/-! ## Command frames and word frames (41_word_frames.md) -/

/-- R101: big-endian assembly; its two bytes are read back by R44's selections. -/
def Obligations.BigEndianAssembly : Prop :=
  ∀ (hi lo : Byte), (be16 hi lo).toNat = hi.toNat * 256 + lo.toNat ∧ hiByte (be16 hi lo) = hi ∧ loByte (be16 hi lo) = lo

/-- R100: ENC builds the frame of the opcode in BUF[0], BUF[1], for every 16-bit value, and no other command changes TX, so
TX holds the frame of the last successful ENC. -/
def Obligations.EncBuildsTheFrame : Prop :=
  decode 0x04 = .command .enc ∧
  ∀ s : State,
    (s.len.toNat < 2 → exec .enc s = .next { s with status := { err := 3, done := true, errIdx := 0 } }) ∧
    (2 ≤ s.len.toNat →
      exec .enc s = .next { s with
        tx := #v[s.bufByte 0, s.bufByte 1, crc8 0xFF [s.bufByte 0, s.bufByte 1]]
        status := { err := 0, done := true, errIdx := 0 } }) ∧
    (s.len = 2 → s.bufByte 0 = 0x3F → s.bufByte 1 = 0x86 →
      exec .enc s = .next { s with tx := #v[0x3F, 0x86, 0x76], status := { err := 0, done := true, errIdx := 0 } }) ∧
    ∀ (i : Instr) (t : State), i ≠ .enc → exec i s = .next t → t.tx = s.tx

/-- R72: the frames of the three sensor opcodes. -/
def Obligations.SensorOpcodeFrames : Prop :=
  Config.sensorStop = 0x3F86 ∧ Config.sensorStart = 0x21B1 ∧ Config.sensorReadMeasurement = 0xEC05 ∧
  ∀ (s : State) (op : Word16), 2 ≤ s.len.toNat → be16 (s.bufByte 0) (s.bufByte 1) = op →
    ∃ t, exec .enc s = .next t ∧
      (op = Config.sensorStop → t.tx = #v[0x3F, 0x86, 0x76]) ∧
      (op = Config.sensorStart → t.tx = #v[0x21, 0xB1, 0x27]) ∧
      (op = Config.sensorReadMeasurement → t.tx = #v[0xEC, 0x05, 0xB6])

/-- R102: WRD checks the groups in order and writes the words only if all are valid. -/
def Obligations.WrdDecodesTheGroups : Prop :=
  (∀ (s : State) (n : Nibble), 1 ≤ n.toNat → n.toNat ≤ 10 →
    decode (BitVec.ofNat 8 (16 * n.toNat + 5)) = .command (.wrd n) ∧
    (s.len.toNat < 3 * n.toNat →
      exec (.wrd n) s = .next { s with status := { err := 3, done := true, errIdx := 0 } }) ∧
    (∀ g, 3 * n.toNat ≤ s.len.toNat → g < n.toNat →
      crc8 0xFF [s.bufByte (3 * g), s.bufByte (3 * g + 1)] ≠ s.bufByte (3 * g + 2) →
      (∀ h < g, crc8 0xFF [s.bufByte (3 * h), s.bufByte (3 * h + 1)] = s.bufByte (3 * h + 2)) →
      exec (.wrd n) s = .next { s with status := { err := 1, done := true, errIdx := BitVec.ofNat 4 g } }) ∧
    (3 * n.toNat ≤ s.len.toNat →
      (∀ h < n.toNat, crc8 0xFF [s.bufByte (3 * h), s.bufByte (3 * h + 1)] = s.bufByte (3 * h + 2)) →
      ∃ t, exec (.wrd n) s = .next t ∧
        (∀ k : Fin 10, t.w[k] =
          if k.val < n.toNat then be16 (s.bufByte (3 * k.val)) (s.bufByte (3 * k.val + 1)) else s.w[k]) ∧
        t = { s with w := t.w, status := { err := 0, done := true, errIdx := 0 } })) ∧
  compute [0x00, 0x00] = 0x81 ∧
  ∀ s : State, s.len = 9 →
    (List.range 9).map s.bufByte = [0x01, 0xF4, 0x33, 0x80, 0x00, 0xA2, 0x40, 0x00, 0x08] →
    ∃ t, exec (.wrd 3) s = .next t ∧ t.w[0] = 500 ∧ t.w[1] = 0x8000 ∧ t.w[2] = 0x4000 ∧
      t.status = { err := 0, done := true, errIdx := 0 }

/-- R103: encoding a word into a frame and decoding that frame gives the word. -/
def Obligations.EncThenWrdRoundTrip : Prop :=
  ∀ (v : Word16) (s : State), 2 ≤ s.len.toNat → s.bufByte 0 = hiByte v → s.bufByte 1 = loByte v →
    ∃ t, exec .enc s = .next t ∧
      ∀ u : State, u.len = 3 → u.bufByte 0 = t.tx[0] → u.bufByte 1 = t.tx[1] → u.bufByte 2 = t.tx[2] →
        ∃ z, exec (.wrd 1) u = .next z ∧ z.status = { err := 0, done := true, errIdx := 0 } ∧ z.w[0] = v

/-- R104: flipping exactly one of the 24 bits of a group in a span of valid groups makes WRD report that group, and write
nothing but STATUS. -/
def Obligations.OneFlippedBitIsDetected : Prop :=
  ∀ (s u : State) (n : Nibble) (g j k : Nat), 1 ≤ n.toNat → n.toNat ≤ 10 → 3 * n.toNat ≤ s.len.toNat →
    (∀ h < n.toNat, compute [s.bufByte (3 * h), s.bufByte (3 * h + 1)] = s.bufByte (3 * h + 2)) →
    g < n.toNat → j < 3 → k < 8 → u.len = s.len →
    (∀ x, u.bufByte x = if x = 3 * g + j then s.bufByte x ^^^ 1#8 <<< k else s.bufByte x) →
    exec (.wrd n) u = .next { u with status := { err := 1, done := true, errIdx := BitVec.ofNat 4 g } }

/-! ## The particulate frame decoder (42_particulate.md) -/

/-- R120: PMD checks the length, then the magic, then extracts the nine fields; W[9] keeps its value. -/
def Obligations.PmdExtractsTheFields : Prop :=
  decode 0x06 = .command .pmd ∧
  (∀ s : State,
    (s.len.toNat < 32 → exec .pmd s = .next { s with status := { err := 3, done := true, errIdx := 0 } }) ∧
    (32 ≤ s.len.toNat → s.bufByte 0 ≠ 0x42 ∨ s.bufByte 1 ≠ 0x4D →
      exec .pmd s = .next { s with status := { err := 2, done := true, errIdx := 0 } }) ∧
    (32 ≤ s.len.toNat → s.bufByte 0 = 0x42 → s.bufByte 1 = 0x4D →
      ∃ t, exec .pmd s = .next t ∧
        (∀ k : Fin 10, t.w[k] =
          if k.val < 9 then be16 (s.bufByte (0x0A + 2 * k.val)) (s.bufByte (0x0B + 2 * k.val)) else s.w[k]) ∧
        t = { s with w := t.w, status := { err := 0, done := true, errIdx := 0 } })) ∧
  ∀ s : State, s.len = 32 → s.bufByte 0 = 0x42 → s.bufByte 1 = 0x4D → s.bufByte 0x0D = 0x0A →
    (∀ j < 32, j ≠ 0 → j ≠ 1 → j ≠ 0x0D → s.bufByte j = 0x00) →
    ∃ t, exec .pmd s = .next t ∧ (∀ k : Fin 9, t.w[k.val] = if k.val = 1 then 10 else 0) ∧
      t.status = { err := 0, done := true, errIdx := 0 }

/-- R121: PMD depends only on LEN, the header and the nine fields; the other bytes of the frame change neither W nor
STATUS. -/
def Obligations.PmdIgnoresTheOtherBytes : Prop :=
  ∀ s u : State, u.len = s.len → u.w = s.w → u.bufByte 0 = s.bufByte 0 → u.bufByte 1 = s.bufByte 1 →
    (∀ j, 0x0A ≤ j → j < 0x1C → u.bufByte j = s.bufByte j) →
    ∃ t z, exec .pmd s = .next t ∧ exec .pmd u = .next z ∧ z.w = t.w ∧ z.status = t.status

/-- R122 and R143: a header that is not exactly 0x42 0x4D raises BAD_FRAME_HEADER and writes nothing else. -/
def Obligations.BadHeaderIsRejected : Prop :=
  ∀ s : State, s.len = 32 → s.bufByte 0 ≠ 0x42 ∨ s.bufByte 1 ≠ 0x4D →
    exec .pmd s = .next { s with status := { err := 2, done := true, errIdx := 0 } }

/-! ## Errors (60_exceptions.md) -/

/-- R140: which codes a command can report. Code 0 is reported exactly by a command that completes without error: it has the
bytes it needs and its content check, where it has one, does not fail. -/
def Obligations.StatusCodesOfCommands : Prop :=
  (∀ (i : Instr) (s t : State), exec i s = .next t →
    (t.status.err = 0 ∨ t.status.err = 1 ∨ t.status.err = 2 ∨ t.status.err = 3 ∨ t.status.err = 4) ∧
    (i.wf = true →
      (t.status.err = 0 ↔ bytesNeeded i ≤ s.len.toNat ∧ ∀ e g, ¬ ContentFails i s e g)) ∧
    (t.status.err = 1 → i = .ver ∨ ∃ n, i = .wrd n) ∧
    (t.status.err = 2 → i = .pmd) ∧
    (t.status.err = 3 → i = .ver ∨ i = .enc ∨ (∃ n, i = .wrd n) ∨ i = .pmd) ∧
    (t.status.err = 4 → i.wf = false)) ∧
  ∀ (s : State) (v : Byte) (rest : List HostEvent), s.pending = .write 0x21 v :: rest →
    ∃ t, step s = .next t ∧ (t.status.err = 4 ↔ ∃ why, decode v = .illegal why)

/-- R141: when VER and WRD report CHECKSUM_MISMATCH, with which index, and that nothing else changes but VER's CRC. -/
def Obligations.ChecksumMismatchIsReported : Prop :=
  (∀ s : State, 1 ≤ s.len.toNat → compute s.payload ≠ s.trailer →
    exec .ver s = .next { s with crc := compute s.payload, status := { err := 1, done := true, errIdx := 0 } }) ∧
  (∀ (s : State) (n : Nibble) (g : Nat), 1 ≤ n.toNat → n.toNat ≤ 10 → 3 * n.toNat ≤ s.len.toNat → g < n.toNat →
    s.groupValid g = false → (∀ h < g, s.groupValid h = true) →
    exec (.wrd n) s = .next { s with status := { err := 1, done := true, errIdx := BitVec.ofNat 4 g } }) ∧
  ∀ (i : Instr) (s t : State), exec i s = .next t → t.status.err = 1 → t.w = s.w ∧ t.tx = s.tx

/-- R142: SHORT_INPUT, for each command that needs bytes, and that CRC and CRCC never raise it. -/
def Obligations.ShortInputIsReported : Prop :=
  ∀ s : State,
    (s.len.toNat < 1 → exec .ver s = .next { s with status := { err := 3, done := true, errIdx := 0 } }) ∧
    (s.len.toNat < 2 → exec .enc s = .next { s with status := { err := 3, done := true, errIdx := 0 } }) ∧
    (∀ n : Nibble, 1 ≤ n.toNat → n.toNat ≤ 10 → s.len.toNat < 3 * n.toNat →
      exec (.wrd n) s = .next { s with status := { err := 3, done := true, errIdx := 0 } }) ∧
    (s.len.toNat < 32 → exec .pmd s = .next { s with status := { err := 3, done := true, errIdx := 0 } }) ∧
    ∀ i, i = .crc ∨ i = .crcc → ∃ t, exec i s = .next t ∧ t.status = { err := 0, done := true, errIdx := 0 }

/-- R145: each CMD write reports one outcome: an illegal byte first, then too short a span, then the content check (its
code and its index), then OK. -/
def Obligations.OneOutcomeInPriorityOrder : Prop :=
  ∀ (s : State) (v : Byte) (rest : List HostEvent), s.pending = .write 0x21 v :: rest →
    ∃ t, step s = .next t ∧ t.status.done = true ∧
      (∀ why, decode v = .illegal why → t.status = { err := 4, done := true, errIdx := 0 }) ∧
      ∀ i, decode v = .command i →
        (s.len.toNat < bytesNeeded i → t.status = { err := 3, done := true, errIdx := 0 }) ∧
        (∀ e g, bytesNeeded i ≤ s.len.toNat → ContentFails i s e g →
          t.status = { err := e, done := true, errIdx := BitVec.ofNat 4 g }) ∧
        (bytesNeeded i ≤ s.len.toNat → (∀ e g, ¬ ContentFails i s e g) →
          t.status = { err := 0, done := true, errIdx := 0 })

/-- R146: no command and no host event stops the machine. -/
def Obligations.NothingStopsTheMachine : Prop :=
  (∀ (i : Instr) (s : State), ∃ t, exec i s = .next t) ∧ ∀ s : State, ∃ t, step s = .next t

/-! ## Frames: what a command leaves unchanged -/

/-- CRC, CRCC and VER change only CRC (0x23) and STATUS (0x22): every other byte of the register space reads as before. -/
def Obligations.CodecCommandsFrame : Prop :=
  ∀ (i : Instr) (s t : State), i = .crc ∨ i = .crcc ∨ i = .ver → exec i s = .next t →
    (∀ a : PortAddr, a ≠ 0x22 → a ≠ 0x23 → hostRead t a = hostRead s a) ∧
    t = { s with crc := t.crc, status := t.status }

/-- ENC changes only TX (0x24..0x26) and STATUS (0x22). -/
def Obligations.EncFrame : Prop :=
  ∀ s t : State, exec .enc s = .next t →
    (∀ a : PortAddr, a ≠ 0x22 → ¬ (0x24 ≤ a.toNat ∧ a.toNat ≤ 0x26) → hostRead t a = hostRead s a) ∧
    t = { s with tx := t.tx, status := t.status }

/-- WRD N changes only W[0..N) (0x28 to 0x27 + 2N) and STATUS (0x22); PMD only W[0..9) and STATUS; on an error neither
changes W. -/
def Obligations.ResultWordCommandsFrame : Prop :=
  ∀ (i : Instr) (m : Nat) (s t : State), (∃ n, i = .wrd n ∧ m = n.toNat) ∨ (i = .pmd ∧ m = 9) → exec i s = .next t →
    (∀ a : PortAddr, a ≠ 0x22 → ¬ (0x28 ≤ a.toNat ∧ a.toNat < 0x28 + 2 * m) → hostRead t a = hostRead s a) ∧
    (t.status.err ≠ 0 → t.w = s.w) ∧
    t = { s with w := t.w, status := t.status }

/-! ## Whole-machine rules (10_state.md) -/

/-- R24 and R29: every command writes all of STATUS and none reads it, so the outcome before never matters. -/
def Obligations.NoCommandReadsStatus : Prop :=
  ∀ (i : Instr) (s : State) (st : Status), exec i { s with status := st } = exec i s ∧
    ∃ t, exec i s = .next t ∧ t.status.done = true

/-- R22 and R165 (a): a command reads BUF below LEN only. Two buffers that agree there give the same outcome, and the
buffer itself is not changed. -/
def Obligations.CommandsReadOnlyTheSpan : Prop :=
  ∀ (i : Instr) (s t : State) (b : Memory) (r : Nat),
    (∀ j < s.len.toNat, State.bufByte { s with buf := b, resets := r } j = s.bufByte j) →
    exec i s = .next t →
    exec i { s with buf := b, resets := r } = .next { t with buf := b, resets := r } ∧
      t.buf = s.buf ∧ t.resets = s.resets

/-- R21 to R28 and the table of R31: apart from reset, which events can change each register. -/
def Obligations.OnlyTheirWritersChangeRegisters : Prop :=
  ∀ (s t : State) (e : HostEvent) (rest : List HostEvent), s.pending = e :: rest → e ≠ .reset →
    (∀ v, e ≠ .resetInCommand v) → step s = .next t →
    (∀ j, t.bufByte j ≠ s.bufByte j → ∃ a v, e = .write a v ∧ a.toNat = j ∧ j ≤ 0x1F) ∧
    (t.len ≠ s.len → ∃ v, e = .write 0x20 v) ∧
    (t.cmd ≠ s.cmd → ∃ v, e = .write 0x21 v) ∧
    (t.status ≠ s.status → ∃ v, e = .write 0x21 v) ∧
    (t.crc ≠ s.crc → ∃ v, e = .write 0x23 v ∨
      (e = .write 0x21 v ∧ (decode v = .command .crc ∨ decode v = .command .crcc ∨ decode v = .command .ver))) ∧
    (t.tx ≠ s.tx → e = .write 0x21 0x04 ∧ t.status = { err := 0, done := true, errIdx := 0 }) ∧
    (t.w ≠ s.w → ∃ v, e = .write 0x21 v ∧ ((∃ n, decode v = .command (.wrd n)) ∨ decode v = .command .pmd) ∧
      t.status = { err := 0, done := true, errIdx := 0 })

/-- R49: a read changes no register; repeating a write to BUF, LEN or CRC changes nothing more; repeating a command other
than CRCC on unchanged inputs gives the same state, and repeating CRCC need not. -/
def Obligations.RepeatingTransactions : Prop :=
  (∀ (s : State) (a : PortAddr) (rest : List HostEvent), s.pending = .read a :: rest →
    step s = .next { s with pending := rest, reads := s.reads ++ [hostRead s a] }) ∧
  (∀ (s t : State) (a : PortAddr) (v : Byte), a ≠ 0x21 → runEvents [.write a v] s = .next t →
    runEvents [.write a v] t = .next t) ∧
  (∀ (i : Instr) (s t : State), i ≠ .crcc → exec i s = .next t → exec i t = .next t) ∧
  ∃ s t u : State, exec .crcc s = .next t ∧ exec .crcc t = .next u ∧ u.crc ≠ t.crc

/-! ## Runs (70_reset_and_hazards.md R167, 30_encoding.md R67) -/

/-- R167: every run ends: each event takes effect in one step, and each read adds one observed value. -/
def Obligations.EveryRunEnds : Prop :=
  ∀ (es : List HostEvent) (s : State), ∃ t, runEvents es s = .next t ∧ t.pending = [] ∧
    ∃ seen, t.reads = s.reads ++ seen ∧
      seen.length = es.countP fun e => match e with
        | .read _ => true
        | .write _ _ => false
        | .reset => false
        | .resetInCommand _ => false

/-- R67: `load` makes the span the loaded bytes and changes nothing but BUF and LEN. -/
def Obligations.LoadFillsTheSpan : Prop :=
  ∀ (s : State) (bs : List Byte), bs.length ≤ 32 →
    ∃ t, runEvents (Pseudo.load bs).expand s = .next t ∧ t.span = bs ∧ t.len = BitVec.ofNat 8 bs.length ∧
      (∀ j, bs.length ≤ j → t.bufByte j = s.bufByte j) ∧
      t = { s with buf := t.buf, len := t.len, pending := [] }

/-! ## The invariant -/

/-- The reset state meets the invariant; in it TX is zero and no command has completed (R160). That BUF's cells are in
canonical form is a clause of the invariant that is the model's choice, DESIGN CHOICE (log 2): the spec has no cells. -/
def Obligations.ResetMeetsTheInvariant : Prop :=
  State.reset.Inv ∧ State.reset.tx = #v[0x00, 0x00, 0x00] ∧ State.reset.status.done = false ∧ State.reset.NoCommandYet

/-- Every step from a state that meets the invariant, reset events and illegal commands included, gives a state that meets
it. The clauses from the spec: LEN is legal (R22), TX is zero or a frame (R26, R100), and STATUS is an outcome of the
command that CMD names, once one has completed (R24, R140). The clause that BUF's cells are in canonical form
(`Memory.wf`) is the model's choice, DESIGN CHOICE (log 2): the spec has no cells. -/
def Obligations.EveryStepKeepsTheInvariant : Prop :=
  ∀ s t : State, s.Inv → step s = .next t → t.Inv
end

