-- ==== Sys2Proof/Laws/State.lean ====
section
/-! SUPPORT. One lemma per field per update of State, and what `bufByte` reads after each update that leaves BUF alone. -/

namespace Sys2Proof.Machine

variable (s : State)

/-! ### setBuf -/

@[simp] theorem State.setBuf_buf (i : Nat) (v : Byte) : (s.setBuf i v).buf = Memory.set s.buf i v := rfl
@[simp] theorem State.setBuf_len (i : Nat) (v : Byte) : (s.setBuf i v).len = s.len := rfl
@[simp] theorem State.setBuf_cmd (i : Nat) (v : Byte) : (s.setBuf i v).cmd = s.cmd := rfl
@[simp] theorem State.setBuf_status (i : Nat) (v : Byte) : (s.setBuf i v).status = s.status := rfl
@[simp] theorem State.setBuf_crc (i : Nat) (v : Byte) : (s.setBuf i v).crc = s.crc := rfl
@[simp] theorem State.setBuf_tx (i : Nat) (v : Byte) : (s.setBuf i v).tx = s.tx := rfl
@[simp] theorem State.setBuf_w (i : Nat) (v : Byte) : (s.setBuf i v).w = s.w := rfl
@[simp] theorem State.setBuf_resets (i : Nat) (v : Byte) : (s.setBuf i v).resets = s.resets := rfl
@[simp] theorem State.setBuf_pending (i : Nat) (v : Byte) : (s.setBuf i v).pending = s.pending := rfl
@[simp] theorem State.setBuf_reads (i : Nat) (v : Byte) : (s.setBuf i v).reads = s.reads := rfl

/-! ### setLen -/

@[simp] theorem State.setLen_buf (v : Byte) : (s.setLen v).buf = s.buf := rfl
@[simp] theorem State.setLen_len (v : Byte) : (s.setLen v).len = v := rfl
@[simp] theorem State.setLen_cmd (v : Byte) : (s.setLen v).cmd = s.cmd := rfl
@[simp] theorem State.setLen_status (v : Byte) : (s.setLen v).status = s.status := rfl
@[simp] theorem State.setLen_crc (v : Byte) : (s.setLen v).crc = s.crc := rfl
@[simp] theorem State.setLen_tx (v : Byte) : (s.setLen v).tx = s.tx := rfl
@[simp] theorem State.setLen_w (v : Byte) : (s.setLen v).w = s.w := rfl
@[simp] theorem State.setLen_resets (v : Byte) : (s.setLen v).resets = s.resets := rfl
@[simp] theorem State.setLen_pending (v : Byte) : (s.setLen v).pending = s.pending := rfl
@[simp] theorem State.setLen_reads (v : Byte) : (s.setLen v).reads = s.reads := rfl
@[simp] theorem State.setLen_bufByte (v : Byte) (j : Nat) : (s.setLen v).bufByte j = s.bufByte j := rfl

/-! ### setCmd -/

@[simp] theorem State.setCmd_buf (v : Byte) : (s.setCmd v).buf = s.buf := rfl
@[simp] theorem State.setCmd_len (v : Byte) : (s.setCmd v).len = s.len := rfl
@[simp] theorem State.setCmd_cmd (v : Byte) : (s.setCmd v).cmd = v := rfl
@[simp] theorem State.setCmd_status (v : Byte) : (s.setCmd v).status = s.status := rfl
@[simp] theorem State.setCmd_crc (v : Byte) : (s.setCmd v).crc = s.crc := rfl
@[simp] theorem State.setCmd_tx (v : Byte) : (s.setCmd v).tx = s.tx := rfl
@[simp] theorem State.setCmd_w (v : Byte) : (s.setCmd v).w = s.w := rfl
@[simp] theorem State.setCmd_resets (v : Byte) : (s.setCmd v).resets = s.resets := rfl
@[simp] theorem State.setCmd_pending (v : Byte) : (s.setCmd v).pending = s.pending := rfl
@[simp] theorem State.setCmd_reads (v : Byte) : (s.setCmd v).reads = s.reads := rfl
@[simp] theorem State.setCmd_bufByte (v : Byte) (j : Nat) : (s.setCmd v).bufByte j = s.bufByte j := rfl

/-! ### setStatus -/

@[simp] theorem State.setStatus_buf (v : Status) : (s.setStatus v).buf = s.buf := rfl
@[simp] theorem State.setStatus_len (v : Status) : (s.setStatus v).len = s.len := rfl
@[simp] theorem State.setStatus_cmd (v : Status) : (s.setStatus v).cmd = s.cmd := rfl
@[simp] theorem State.setStatus_status (v : Status) : (s.setStatus v).status = v := rfl
@[simp] theorem State.setStatus_crc (v : Status) : (s.setStatus v).crc = s.crc := rfl
@[simp] theorem State.setStatus_tx (v : Status) : (s.setStatus v).tx = s.tx := rfl
@[simp] theorem State.setStatus_w (v : Status) : (s.setStatus v).w = s.w := rfl
@[simp] theorem State.setStatus_resets (v : Status) : (s.setStatus v).resets = s.resets := rfl
@[simp] theorem State.setStatus_pending (v : Status) : (s.setStatus v).pending = s.pending := rfl
@[simp] theorem State.setStatus_reads (v : Status) : (s.setStatus v).reads = s.reads := rfl
@[simp] theorem State.setStatus_bufByte (v : Status) (j : Nat) : (s.setStatus v).bufByte j = s.bufByte j := rfl

/-! ### setCrc -/

@[simp] theorem State.setCrc_buf (v : Byte) : (s.setCrc v).buf = s.buf := rfl
@[simp] theorem State.setCrc_len (v : Byte) : (s.setCrc v).len = s.len := rfl
@[simp] theorem State.setCrc_cmd (v : Byte) : (s.setCrc v).cmd = s.cmd := rfl
@[simp] theorem State.setCrc_status (v : Byte) : (s.setCrc v).status = s.status := rfl
@[simp] theorem State.setCrc_crc (v : Byte) : (s.setCrc v).crc = v := rfl
@[simp] theorem State.setCrc_tx (v : Byte) : (s.setCrc v).tx = s.tx := rfl
@[simp] theorem State.setCrc_w (v : Byte) : (s.setCrc v).w = s.w := rfl
@[simp] theorem State.setCrc_resets (v : Byte) : (s.setCrc v).resets = s.resets := rfl
@[simp] theorem State.setCrc_pending (v : Byte) : (s.setCrc v).pending = s.pending := rfl
@[simp] theorem State.setCrc_reads (v : Byte) : (s.setCrc v).reads = s.reads := rfl
@[simp] theorem State.setCrc_bufByte (v : Byte) (j : Nat) : (s.setCrc v).bufByte j = s.bufByte j := rfl

/-! ### setTx -/

@[simp] theorem State.setTx_buf (v : Vector Byte 3) : (s.setTx v).buf = s.buf := rfl
@[simp] theorem State.setTx_len (v : Vector Byte 3) : (s.setTx v).len = s.len := rfl
@[simp] theorem State.setTx_cmd (v : Vector Byte 3) : (s.setTx v).cmd = s.cmd := rfl
@[simp] theorem State.setTx_status (v : Vector Byte 3) : (s.setTx v).status = s.status := rfl
@[simp] theorem State.setTx_crc (v : Vector Byte 3) : (s.setTx v).crc = s.crc := rfl
@[simp] theorem State.setTx_tx (v : Vector Byte 3) : (s.setTx v).tx = v := rfl
@[simp] theorem State.setTx_w (v : Vector Byte 3) : (s.setTx v).w = s.w := rfl
@[simp] theorem State.setTx_resets (v : Vector Byte 3) : (s.setTx v).resets = s.resets := rfl
@[simp] theorem State.setTx_pending (v : Vector Byte 3) : (s.setTx v).pending = s.pending := rfl
@[simp] theorem State.setTx_reads (v : Vector Byte 3) : (s.setTx v).reads = s.reads := rfl
@[simp] theorem State.setTx_bufByte (v : Vector Byte 3) (j : Nat) : (s.setTx v).bufByte j = s.bufByte j := rfl

/-! ### setWords -/

@[simp] theorem State.setWords_buf (n : Nat) (f : Nat → Word16) : (s.setWords n f).buf = s.buf := rfl
@[simp] theorem State.setWords_len (n : Nat) (f : Nat → Word16) : (s.setWords n f).len = s.len := rfl
@[simp] theorem State.setWords_cmd (n : Nat) (f : Nat → Word16) : (s.setWords n f).cmd = s.cmd := rfl
@[simp] theorem State.setWords_status (n : Nat) (f : Nat → Word16) : (s.setWords n f).status = s.status := rfl
@[simp] theorem State.setWords_crc (n : Nat) (f : Nat → Word16) : (s.setWords n f).crc = s.crc := rfl
@[simp] theorem State.setWords_tx (n : Nat) (f : Nat → Word16) : (s.setWords n f).tx = s.tx := rfl
@[simp] theorem State.setWords_resets (n : Nat) (f : Nat → Word16) : (s.setWords n f).resets = s.resets := rfl
@[simp] theorem State.setWords_pending (n : Nat) (f : Nat → Word16) : (s.setWords n f).pending = s.pending := rfl
@[simp] theorem State.setWords_reads (n : Nat) (f : Nat → Word16) : (s.setWords n f).reads = s.reads := rfl
@[simp] theorem State.setWords_bufByte (n : Nat) (f : Nat → Word16) (j : Nat) : (s.setWords n f).bufByte j = s.bufByte j := rfl

/-! ### setPending -/

@[simp] theorem State.setPending_buf (es : List HostEvent) : (s.setPending es).buf = s.buf := rfl
@[simp] theorem State.setPending_len (es : List HostEvent) : (s.setPending es).len = s.len := rfl
@[simp] theorem State.setPending_cmd (es : List HostEvent) : (s.setPending es).cmd = s.cmd := rfl
@[simp] theorem State.setPending_status (es : List HostEvent) : (s.setPending es).status = s.status := rfl
@[simp] theorem State.setPending_crc (es : List HostEvent) : (s.setPending es).crc = s.crc := rfl
@[simp] theorem State.setPending_tx (es : List HostEvent) : (s.setPending es).tx = s.tx := rfl
@[simp] theorem State.setPending_w (es : List HostEvent) : (s.setPending es).w = s.w := rfl
@[simp] theorem State.setPending_resets (es : List HostEvent) : (s.setPending es).resets = s.resets := rfl
@[simp] theorem State.setPending_pending (es : List HostEvent) : (s.setPending es).pending = es := rfl
@[simp] theorem State.setPending_reads (es : List HostEvent) : (s.setPending es).reads = s.reads := rfl
@[simp] theorem State.setPending_bufByte (es : List HostEvent) (j : Nat) : (s.setPending es).bufByte j = s.bufByte j := rfl

/-! ### pushRead -/

@[simp] theorem State.pushRead_buf (v : Byte) : (s.pushRead v).buf = s.buf := rfl
@[simp] theorem State.pushRead_len (v : Byte) : (s.pushRead v).len = s.len := rfl
@[simp] theorem State.pushRead_cmd (v : Byte) : (s.pushRead v).cmd = s.cmd := rfl
@[simp] theorem State.pushRead_status (v : Byte) : (s.pushRead v).status = s.status := rfl
@[simp] theorem State.pushRead_crc (v : Byte) : (s.pushRead v).crc = s.crc := rfl
@[simp] theorem State.pushRead_tx (v : Byte) : (s.pushRead v).tx = s.tx := rfl
@[simp] theorem State.pushRead_w (v : Byte) : (s.pushRead v).w = s.w := rfl
@[simp] theorem State.pushRead_resets (v : Byte) : (s.pushRead v).resets = s.resets := rfl
@[simp] theorem State.pushRead_pending (v : Byte) : (s.pushRead v).pending = s.pending := rfl
@[simp] theorem State.pushRead_reads (v : Byte) : (s.pushRead v).reads = s.reads ++ [v] := rfl
@[simp] theorem State.pushRead_bufByte (v : Byte) (j : Nat) : (s.pushRead v).bufByte j = s.bufByte j := rfl

/-! ### raise -/

@[simp] theorem State.raise_buf (e : ErrCode) (g : Nat) : (s.raise e g).buf = s.buf := rfl
@[simp] theorem State.raise_len (e : ErrCode) (g : Nat) : (s.raise e g).len = s.len := rfl
@[simp] theorem State.raise_cmd (e : ErrCode) (g : Nat) : (s.raise e g).cmd = s.cmd := rfl
@[simp] theorem State.raise_status (e : ErrCode) (g : Nat) : (s.raise e g).status = { err := e.code, done := true, errIdx := BitVec.ofNat 4 g } := rfl
@[simp] theorem State.raise_crc (e : ErrCode) (g : Nat) : (s.raise e g).crc = s.crc := rfl
@[simp] theorem State.raise_tx (e : ErrCode) (g : Nat) : (s.raise e g).tx = s.tx := rfl
@[simp] theorem State.raise_w (e : ErrCode) (g : Nat) : (s.raise e g).w = s.w := rfl
@[simp] theorem State.raise_resets (e : ErrCode) (g : Nat) : (s.raise e g).resets = s.resets := rfl
@[simp] theorem State.raise_pending (e : ErrCode) (g : Nat) : (s.raise e g).pending = s.pending := rfl
@[simp] theorem State.raise_reads (e : ErrCode) (g : Nat) : (s.raise e g).reads = s.reads := rfl
@[simp] theorem State.raise_bufByte (e : ErrCode) (g : Nat) (j : Nat) : (s.raise e g).bufByte j = s.bufByte j := rfl

/-! ### finish -/

@[simp] theorem State.finish_buf : (s.finish).buf = s.buf := rfl
@[simp] theorem State.finish_len : (s.finish).len = s.len := rfl
@[simp] theorem State.finish_cmd : (s.finish).cmd = s.cmd := rfl
@[simp] theorem State.finish_status : (s.finish).status = { err := 0, done := true, errIdx := 0 } := rfl
@[simp] theorem State.finish_crc : (s.finish).crc = s.crc := rfl
@[simp] theorem State.finish_tx : (s.finish).tx = s.tx := rfl
@[simp] theorem State.finish_w : (s.finish).w = s.w := rfl
@[simp] theorem State.finish_resets : (s.finish).resets = s.resets := rfl
@[simp] theorem State.finish_pending : (s.finish).pending = s.pending := rfl
@[simp] theorem State.finish_reads : (s.finish).reads = s.reads := rfl
@[simp] theorem State.finish_bufByte (j : Nat) : (s.finish).bufByte j = s.bufByte j := rfl

/-! ### applyReset -/

@[simp] theorem State.applyReset_buf : s.applyReset.buf = State.reset.buf := rfl
@[simp] theorem State.applyReset_len : s.applyReset.len = State.reset.len := rfl
@[simp] theorem State.applyReset_cmd : s.applyReset.cmd = State.reset.cmd := rfl
@[simp] theorem State.applyReset_status : s.applyReset.status = State.reset.status := rfl
@[simp] theorem State.applyReset_crc : s.applyReset.crc = State.reset.crc := rfl
@[simp] theorem State.applyReset_tx : s.applyReset.tx = State.reset.tx := rfl
@[simp] theorem State.applyReset_w : s.applyReset.w = State.reset.w := rfl
@[simp] theorem State.applyReset_resets : s.applyReset.resets = s.resets + 1 := rfl
@[simp] theorem State.applyReset_pending : s.applyReset.pending = s.pending := rfl
@[simp] theorem State.applyReset_reads : s.applyReset.reads = s.reads := rfl

end Sys2Proof.Machine
end

