-- ==== Sys2Proof/Laws/Memory.lean ====
section
/-! SUPPORT. The laws of BUF's cells: read after write, the canonical form, and that equal readings are equal data. -/

namespace Sys2Proof.Machine

@[simp] theorem Memory.get?_nil (a : Nat) : Memory.get? [] a = none := rfl

@[simp] theorem Memory.get?_cons (b : Nat) (v : Byte) (m : Memory) (a : Nat) :
    Memory.get? ((b, v) :: m) a = if b = a then some v else Memory.get? m a := rfl

/-- A read after a write: the written byte at its index, and every other index as before. -/
theorem Memory.get?_set (m : Memory) (a : Nat) (v : Byte) (j : Nat) :
    Memory.get? (Memory.set m a v) j = if j = a then some v else Memory.get? m j := by
  induction m with
  | nil => simp [Memory.set, eq_comm]
  | cons c m ih =>
    obtain ⟨b, w⟩ := c
    simp only [Memory.set]
    split_ifs <;> simp_all [eq_comm]

@[simp] theorem State.setBuf_bufByte_same (s : State) (a : Nat) (v : Byte) : (s.setBuf a v).bufByte a = v := by
  simp [State.bufByte, Memory.get?_set]

theorem State.setBuf_bufByte_other (s : State) (a : Nat) (v : Byte) {j : Nat} (h : j ≠ a) :
    (s.setBuf a v).bufByte j = s.bufByte j := by
  simp [State.bufByte, Memory.get?_set, h]

theorem Memory.mem_set {m : Memory} {a : Nat} {v : Byte} {c : Host.Cell} (h : c ∈ Memory.set m a v) :
    c = (a, v) ∨ c ∈ m := by
  induction m with
  | nil => simpa [Memory.set] using h
  | cons d m ih =>
    obtain ⟨b, w⟩ := d
    simp only [Memory.set] at h
    split_ifs at h <;> simp only [List.mem_cons] at h ⊢ <;> tauto

/-- A write inside BUF keeps the canonical form. -/
theorem Memory.set_wf {m : Memory} (hm : Memory.wf m) {a : Nat} (ha : a < Config.bufSize) (v : Byte) :
    Memory.wf (Memory.set m a v) := by
  refine ⟨?_, fun c hc => (Memory.mem_set hc).elim (fun h => h ▸ ha) (hm.2 c)⟩
  obtain ⟨hs, -⟩ := hm
  induction m with
  | nil => simp [Memory.set]
  | cons d m ih =>
    obtain ⟨b, w⟩ := d
    obtain ⟨hb, hs⟩ := List.pairwise_cons.1 hs
    simp only [Memory.set]
    split_ifs with hab heq
    · refine List.pairwise_cons.2 ⟨fun c hc => ?_, List.pairwise_cons.2 ⟨hb, hs⟩⟩
      rcases List.mem_cons.1 hc with rfl | hc
      · exact hab
      · exact lt_trans hab (hb c hc)
    · exact List.pairwise_cons.2 ⟨fun c hc => by simpa [heq] using hb c hc, hs⟩
    · refine List.pairwise_cons.2 ⟨fun c hc => ?_, ih hs⟩
      rcases Memory.mem_set hc with rfl | hc
      · change b < a
        omega
      · exact hb c hc

/-- Every other operation on the state leaves BUF's cells as they are, and reset clears them: `State.setLen_buf` and its
siblings, `State.applyReset_buf`. -/
theorem State.reset_buf_wf : Memory.wf State.reset.buf := by decide

theorem Memory.get?_eq_none {m : Memory} {a : Nat} (h : ∀ c ∈ m, a < c.1) : Memory.get? m a = none := by
  induction m with
  | nil => rfl
  | cons c m ih =>
    have := h c (by simp)
    simp [Memory.get?, Nat.ne_of_gt this, ih fun d hd => h d (by simp [hd])]

/-- Two canonical buffers that hold the same bytes at every index are the same list. -/
theorem Memory.ext_of_wf {m m' : Memory} (h : Memory.wf m) (h' : Memory.wf m')
    (heq : ∀ a, Memory.get? m a = Memory.get? m' a) : m = m' := by
  replace h := h.1
  replace h' := h'.1
  induction m generalizing m' with
  | nil =>
    cases m' with
    | nil => rfl
    | cons d _ => simpa [Memory.get?] using heq d.1
  | cons c m ih =>
    cases m' with
    | nil => simpa [Memory.get?] using heq c.1
    | cons d m' =>
      obtain ⟨b, v⟩ := c
      obtain ⟨b', v'⟩ := d
      obtain ⟨hc, hm⟩ := List.pairwise_cons.1 h
      obtain ⟨hd, hm'⟩ := List.pairwise_cons.1 h'
      have hbb : b = b' := by
        rcases lt_trichotomy b b' with hlt | h | hlt
        · have hn : Memory.get? ((b', v') :: m') b = none := Memory.get?_eq_none fun c hc => by
            rcases List.mem_cons.1 hc with rfl | hc
            · exact hlt
            · exact lt_trans hlt (hd c hc)
          simp [← heq b] at hn
        · exact h
        · have hn : Memory.get? ((b, v) :: m) b' = none := Memory.get?_eq_none fun c hc' => by
            rcases List.mem_cons.1 hc' with rfl | hc'
            · exact hlt
            · exact lt_trans hlt (hc c hc')
          simp [heq b'] at hn
      subst hbb
      have hv : v = v' := by simpa using heq b
      subst hv
      congr 1
      refine ih (fun a => ?_) hm hm'
      by_cases hab : b = a
      · subst hab
        rw [Memory.get?_eq_none hc, Memory.get?_eq_none hd]
      · simpa [hab] using heq a

end Sys2Proof.Machine
end

