-- ==== Sys2Proof/Laws/Ops.lean ====
section
/-! SUPPORT. What each shared operation and each command can do, said once. -/

namespace Sys2Proof.Machine

/-! ### Operands -/

theorem State.setWords_get (s : State) (n : Nat) (f : Nat → Word16) (k : Fin 10) :
    (s.setWords n f).w[k] = if k.val < n then f k.val else s.w[k] := by
  simp [State.setWords]

@[simp] theorem State.bufTo_length (s : State) (n : Nat) : (s.bufTo n).length = n := by simp [State.bufTo]

/-- A span depends on the bytes below its end only. -/
theorem State.bufTo_congr {s u : State} {n : Nat} (h : ∀ j < n, u.bufByte j = s.bufByte j) : u.bufTo n = s.bufTo n :=
  List.map_congr_left fun j hj => h j (List.mem_range.1 hj)

theorem State.groupValid_iff (s : State) (g : Nat) :
    s.groupValid g = true ↔ compute [s.bufByte (3 * g), s.bufByte (3 * g + 1)] = s.bufByte (3 * g + 2) := by
  simp [State.groupValid, State.groupPayload, State.groupCheck, Config.groupLen]

theorem State.firstBadGroup_eq_none {s : State} {n : Nat} :
    s.firstBadGroup n = none ↔ ∀ h < n, s.groupValid h = true := by
  simp [State.firstBadGroup]

/-- The group reported is below the count, fails, and every group below it is valid. -/
theorem State.firstBadGroup_eq_some {s : State} {n g : Nat} :
    s.firstBadGroup n = some g ↔ g < n ∧ s.groupValid g = false ∧ ∀ h < g, s.groupValid h = true := by
  simp only [State.firstBadGroup, List.find?_range_eq_some, List.mem_range, Bool.not_eq_eq_eq_not, Bool.not_true,
    Bool.not_false]
  tauto

theorem State.magicValid_iff (s : State) : s.magicValid = true ↔ s.bufByte 0 = 0x42 ∧ s.bufByte 1 = 0x4D := by
  simp [State.magicValid, Config.pmMagic0, Config.pmMagic1]

theorem lenClamp_toNat (v : Byte) : (lenClamp v).toNat = min v.toNat 32 := by
  unfold lenClamp Config.bufSize
  split <;> simp <;> omega

/-! ### Commands -/

/-- What a command can do: an error code without any other effect, VER's CRC on a mismatch, or its own result. -/
inductive ExecCase : Instr → State → State → Prop where
  | crc (s : State) : ExecCase .crc s (s.setCrc (crc8 Config.crcInit s.span)).finish
  | crcc (s : State) : ExecCase .crcc s (s.setCrc (crc8 s.crc s.span)).finish
  | verShort (s : State) (h : s.len.toNat < 1) : ExecCase .ver s (s.raise .shortInput 0)
  | verBad (s : State) (h : 1 ≤ s.len.toNat) (hc : crc8 Config.crcInit s.payload ≠ s.trailer) :
      ExecCase .ver s ((s.setCrc (crc8 Config.crcInit s.payload)).raise .checksumMismatch 0)
  | verOk (s : State) (h : 1 ≤ s.len.toNat) (hc : crc8 Config.crcInit s.payload = s.trailer) :
      ExecCase .ver s (s.setCrc (crc8 Config.crcInit s.payload)).finish
  | encShort (s : State) (h : s.len.toNat < 2) : ExecCase .enc s (s.raise .shortInput 0)
  | encOk (s : State) (h : 2 ≤ s.len.toNat) : ExecCase .enc s
      (s.setTx #v[s.bufByte 0, s.bufByte 1, crc8 Config.crcInit [s.bufByte 0, s.bufByte 1]]).finish
  | wrdCount (s : State) (n : Nibble) (h : n.toNat = 0 ∨ 10 < n.toNat) :
      ExecCase (.wrd n) s (s.raise .illegalCommand 0)
  | wrdShort (s : State) (n : Nibble) (h0 : 1 ≤ n.toNat) (h10 : n.toNat ≤ 10) (h : s.len.toNat < 3 * n.toNat) :
      ExecCase (.wrd n) s (s.raise .shortInput 0)
  | wrdBad (s : State) (n : Nibble) (g : Nat) (h0 : 1 ≤ n.toNat) (h10 : n.toNat ≤ 10) (h : 3 * n.toNat ≤ s.len.toNat)
      (hg : s.firstBadGroup n.toNat = some g) : ExecCase (.wrd n) s (s.raise .checksumMismatch g)
  | wrdOk (s : State) (n : Nibble) (h0 : 1 ≤ n.toNat) (h10 : n.toNat ≤ 10) (h : 3 * n.toNat ≤ s.len.toNat)
      (hg : s.firstBadGroup n.toNat = none) : ExecCase (.wrd n) s (s.setWords n.toNat s.groupWord).finish
  | pmdShort (s : State) (h : s.len.toNat < 32) : ExecCase .pmd s (s.raise .shortInput 0)
  | pmdBad (s : State) (h : 32 ≤ s.len.toNat) (hm : s.magicValid = false) :
      ExecCase .pmd s (s.raise .badFrameHeader 0)
  | pmdOk (s : State) (h : 32 ≤ s.len.toNat) (hm : s.magicValid = true) :
      ExecCase .pmd s (s.setWords 9 s.pmField).finish

/-- The inversion of `exec`: every next state is one of the cases, guards included. -/
theorem exec_cases {i : Instr} {s t : State} (h : exec i s = .next t) : ExecCase i s t := by
  cases i with
  | crc => cases h; exact .crc s
  | crcc => cases h; exact .crcc s
  | ver =>
    simp only [exec, execVer, Host.Outcome.next.injEq] at h
    subst h
    split_ifs with h1 h2
    · exact .verShort s h1
    · exact .verBad s (by omega) h2
    · exact .verOk s (by omega) (not_not.1 h2)
  | enc =>
    simp only [exec, execEnc, Host.Outcome.next.injEq] at h
    subst h
    split_ifs with h1
    · exact .encShort s h1
    · exact .encOk s (by omega)
  | wrd n =>
    simp only [exec, execWrd, Host.Outcome.next.injEq, Config.nMax, Config.groupLen] at h
    subst h
    by_cases h1 : n.toNat = 0 ∨ 10 < n.toNat
    · simpa only [h1, if_true] using .wrdCount s n h1
    by_cases h2 : s.len.toNat < 3 * n.toNat
    · simpa only [h1, h2, if_true, if_false] using .wrdShort s n (by omega) (by omega) h2
    simp only [h1, h2, if_false]
    split
    · exact .wrdBad s n _ (by omega) (by omega) (by omega) ‹_›
    · exact .wrdOk s n (by omega) (by omega) (by omega) ‹_›
  | pmd =>
    simp only [exec, execPmd, Host.Outcome.next.injEq, Config.pmFrameLen] at h
    subst h
    by_cases h1 : s.len.toNat < 32
    · simpa only [h1, if_true] using .pmdShort s h1
    cases h2 : s.magicValid
    · simpa [h1, h2] using ExecCase.pmdBad s (by omega) h2
    · simpa [h1, h2, Config.pmFieldCount] using ExecCase.pmdOk s (by omega) h2

/-- `exec` answers the state of each case. -/
theorem exec_of_case {i : Instr} {s t : State} (h : ExecCase i s t) : exec i s = .next t := by
  cases h with
  | crc _ => rfl
  | crcc _ => rfl
  | verShort _ h => simp [exec, execVer, h]
  | verBad _ h hc => simp [exec, execVer, hc, Nat.one_le_iff_ne_zero.1 h]
  | verOk _ h hc => simp [exec, execVer, hc, Nat.one_le_iff_ne_zero.1 h]
  | encShort _ h => simp [exec, execEnc, h]
  | encOk _ h => simp [exec, execEnc, Nat.not_lt.2 h]
  | wrdCount _ n h => simp [exec, execWrd, Config.nMax, h]
  | wrdShort _ n h0 h10 h => simp [exec, execWrd, Config.nMax, Config.groupLen, h, Nat.one_le_iff_ne_zero.1 h0, Nat.not_lt.2 h10]
  | wrdBad _ n g h0 h10 h hg =>
    simp [exec, execWrd, Config.nMax, Config.groupLen, hg, Nat.not_lt.2 h, Nat.one_le_iff_ne_zero.1 h0, Nat.not_lt.2 h10]
  | wrdOk _ n h0 h10 h hg =>
    simp [exec, execWrd, Config.nMax, Config.groupLen, hg, Nat.not_lt.2 h, Nat.one_le_iff_ne_zero.1 h0, Nat.not_lt.2 h10]
  | pmdShort _ h => simp [exec, execPmd, Config.pmFrameLen, h]
  | pmdBad _ h hm => simp [exec, execPmd, Config.pmFrameLen, hm, Nat.not_lt.2 h]
  | pmdOk _ h hm => simp [exec, execPmd, Config.pmFrameLen, Config.pmFieldCount, hm, Nat.not_lt.2 h]

/-! ### Host events -/

/-- What one host event can do to the state from which the event has been taken. -/
inductive EventCase : HostEvent → State → State → Prop where
  | read (s : State) (a : PortAddr) : EventCase (.read a) s (s.pushRead (hostRead s a))
  | writeBuf (s : State) (a : PortAddr) (v : Byte) (h : a.toNat < 32) :
      EventCase (.write a v) s (s.setBuf a.toNat v)
  | writeLen (s : State) (v : Byte) : EventCase (.write 0x20 v) s (s.setLen (lenClamp v))
  | writeCmd (s : State) (v : Byte) (i : Instr) (t : State) (hd : decode v = .command i)
      (h : ExecCase i (s.setCmd v) t) : EventCase (.write 0x21 v) s t
  | writeIllegal (s : State) (v : Byte) (why : DecodeError) (hd : decode v = .illegal why) :
      EventCase (.write 0x21 v) s ((s.setCmd v).raise .illegalCommand 0)
  | writeCrc (s : State) (v : Byte) : EventCase (.write 0x23 v) s (s.setCrc v)
  | writeIgnored (s : State) (a : PortAddr) (v : Byte) (h : 32 ≤ a.toNat) (h0 : a ≠ 0x20) (h1 : a ≠ 0x21)
      (h3 : a ≠ 0x23) : EventCase (.write a v) s s
  | reset (s : State) : EventCase .reset s s.applyReset
  | resetInCommand (s : State) (v : Byte) : EventCase (.resetInCommand v) s s.applyReset

/-- The inversion of `applyEvent`. -/
theorem applyEvent_cases {e : HostEvent} {s t : State} (h : applyEvent e s = .next t) : EventCase e s t := by
  cases e with
  | read a => cases h; exact .read s a
  | reset => cases h; exact .reset s
  | resetInCommand v => cases h; exact .resetInCommand s v
  | write a v =>
    have key : ∀ k, k < 64 → a.toNat = k → a = BitVec.ofNat 6 k := fun k hk h => by
      subst h; simp
    simp only [applyEvent, hostWrite] at h
    split_ifs at h with h0 h1 h2 h3
    · cases h; exact .writeBuf s a v h0
    · cases h; obtain rfl := key 0x20 (by omega) h1; exact .writeLen s v
    · obtain rfl := key 0x21 (by omega) h2
      unfold runCommand at h
      split at h
      · exact .writeCmd s v _ t ‹_› (exec_cases h)
      · cases h; exact .writeIllegal s v _ ‹_›
    · cases h; obtain rfl := key 0x23 (by omega) h3; exact .writeCrc s v
    · cases h
      exact .writeIgnored s a v (by omega) (by rintro rfl; exact h1 rfl) (by rintro rfl; exact h2 rfl)
        (by rintro rfl; exact h3 rfl)

/-- The inversion of `step`: nothing presented and nothing done, or one event taken. -/
theorem step_cases {s t : State} (h : step s = .next t) :
    (s.pending = [] ∧ t = s) ∨ ∃ e rest, s.pending = e :: rest ∧ EventCase e (s.setPending rest) t := by
  unfold step takeEvent at h
  split at h
  · cases h; exact .inl ⟨‹_›, rfl⟩
  · exact .inr ⟨_, _, ‹_›, applyEvent_cases h⟩

theorem step_of_pending {s : State} {e : HostEvent} {rest : List HostEvent} (h : s.pending = e :: rest) :
    step s = applyEvent e (s.setPending rest) := by
  simp [step, takeEvent, h]

/-! ### Runs -/

/-- No event that is taken changes what the host presents after it. -/
theorem EventCase.pending_eq {e : HostEvent} {s t : State} (h : EventCase e s t) : t.pending = s.pending := by
  cases h with
  | writeCmd _ v i _ hd hc => cases hc <;> rfl
  | _ => rfl

/-- An event that is a read adds the byte it returns to the values read, and any other event adds nothing. -/
theorem EventCase.reads_eq {e : HostEvent} {s t : State} (h : EventCase e s t) :
    (∃ a, e = .read a ∧ t.reads = s.reads ++ [hostRead s a]) ∨ ((∀ a, e ≠ .read a) ∧ t.reads = s.reads) := by
  cases h with
  | read _ a => exact .inl ⟨a, rfl, rfl⟩
  | writeCmd _ v i _ hd hc => exact .inr ⟨by simp, by cases hc <;> rfl⟩
  | _ => exact .inr ⟨by simp, rfl⟩

/-- W changes only by a CMD write or a reset (10_state.md R28). -/
theorem EventCase.w_eq {e : HostEvent} {s t : State} (h : EventCase e s t) (hr : e ≠ .reset)
    (hrc : ∀ v, e ≠ .resetInCommand v) (hc : ∀ v, e ≠ .write 0x21 v) : t.w = s.w := by
  cases h with
  | writeCmd _ v _ _ _ _ => exact absurd rfl (hc v)
  | reset => exact absurd rfl hr
  | resetInCommand _ v => exact absurd rfl (hrc v)
  | _ => rfl

@[simp] theorem State.setPending_self (s : State) : s.setPending s.pending = s := rfl

/-- A run takes its first event and goes on with the rest from there. -/
theorem runEvents_cons {e : HostEvent} {es : List HostEvent} {s t : State}
    (h : applyEvent e (s.setPending es) = .next t) : runEvents (e :: es) s = runEvents es t := by
  have hp : t.setPending es = t := by
    have := (applyEvent_cases h).pending_eq
    rw [State.setPending_pending] at this
    rw [← this, State.setPending_self]
  have hs : step (s.setPending (e :: es)) = .next t := (step_of_pending rfl).trans h
  simp only [runEvents, List.length_cons, runSteps, hs, hp]

theorem runEvents_nil (s : State) : runEvents [] s = .next (s.setPending []) := rfl

theorem runSteps_eq_core_run (k : Nat) (s : State) : runSteps k s = Host.Core.run Sys2Proof.core k s := by
  induction k generalizing s with
  | zero => rfl
  | succ k ih =>
    simp only [runSteps, Host.Core.run]
    generalize hq : step s = o
    have hc : Sys2Proof.core.step s = o := hq
    rw [hc]
    cases o with
    | next t => exact ih t
    | fault r => rfl
    | refused r => rfl

end Sys2Proof.Machine
end

