-- ==== Sys2Proof/Laws/PerInstr.lean ====
section
/-! SUPPORT. Statements made per instruction: the command byte of each is one of the legal ones (30_encoding.md R63). -/

namespace Sys2Proof.Laws.LegalByte

/-- The encoding of the instruction, where it is well formed, is one of the 15 legal command bytes that
30_encoding.md R63 lists. -/
def Statement (i : Instr) : Prop :=
  i.wf = true →
    encode i ∈ [(0x01 : Byte), 0x02, 0x03, 0x04, 0x06, 0x15, 0x25, 0x35, 0x45, 0x55, 0x65, 0x75, 0x85, 0x95, 0xA5]

theorem crc : Statement .crc := by unfold Statement; decide

theorem crcc : Statement .crcc := by unfold Statement; decide

theorem ver : Statement .ver := by unfold Statement; decide

theorem enc : Statement .enc := by unfold Statement; decide

theorem wrd (n : Nibble) : Statement (.wrd n) := by
  unfold Statement
  revert n
  decide

theorem pmd : Statement .pmd := by unfold Statement; decide

end Sys2Proof.Laws.LegalByte
end

