-- ==== Sys2Proof/Tests/Slice0.lean ====
section
/-! SUPPORT. Tests on the vectors of 95_test_vectors.md (each cites its vector), the well-formedness smoke test, and a
witness for the hypotheses of every statement that has some. -/

namespace Sys2Proof.Tests

open Sys2Proof Sys2Proof.Machine

/-! ## Helpers -/

/-- The next state, if there is one. -/
def after (o : Host.Outcome State Fault Refusal) : Option State :=
  match o with
  | .next s => some s
  | .fault _ => none
  | .refused _ => none

/-- The reset state with these bytes written to BUF from index 0, and LEN their number. -/
def loaded (bs : List Byte) : State :=
  { State.reset with buf := bs.zipIdx.map fun p => (p.2, p.1), len := BitVec.ofNat 8 bs.length }

/-- The reset state with one host event presented. -/
def presenting (e : HostEvent) : State := State.reset.setPending [e]

/-- The particulate frame of V29: magic, EE in the bytes no rule describes, and nine fields. -/
def frameV29 : List Byte :=
  [0x42, 0x4D, 0xEE, 0xEE, 0xEE, 0xEE, 0xEE, 0xEE, 0xEE, 0xEE, 0x01, 0x02, 0x03, 0x04, 0x05, 0x06] ++
  [0x07, 0x08, 0x09, 0x0A, 0x0B, 0x0C, 0x0D, 0x0E, 0x0F, 0x10, 0x11, 0x12, 0xEE, 0xEE, 0xEE, 0xEE]

/-- The frame of V3: PM2.5 is 10, every other field 0. -/
def frameV3 : List Byte :=
  [0x42, 0x4D] ++ List.replicate 10 0x00 ++ [0x00, 0x0A] ++ List.replicate 18 0x00

/-! ## Well-formedness: each check refuses an ill-formed term -/

theorem test_wf_refuses_wrd_count_zero : (Instr.wrd 0).wf = false := by decide

theorem test_wf_refuses_wrd_count_eleven : (Instr.wrd 11).wf = false := by decide

theorem test_wf_accepts_the_ends_of_the_range : (Instr.wrd 1).wf = true ∧ (Instr.wrd 10).wf = true := by decide

/-! ## Decoding, one word for each constructor written out from 30_encoding.md R61 (ARG above OP) -/

theorem test_decode_crc : decode 0b0000_0001 = .command .crc := by decide

theorem test_decode_crcc : decode 0b0000_0010 = .command .crcc := by decide

theorem test_decode_ver : decode 0b0000_0011 = .command .ver := by decide

theorem test_decode_enc : decode 0b0000_0100 = .command .enc := by decide

theorem test_decode_wrd : decode 0b0011_0101 = .command (.wrd 3) ∧ decode 0b1010_0101 = .command (.wrd 10) := by decide

theorem test_decode_pmd : decode 0b0000_0110 = .command .pmd := by decide

/-- V31. -/
theorem test_decode_refuses_v31 :
    decode 0x00 = .illegal .reservedOp ∧ decode 0x07 = .illegal .reservedOp ∧ decode 0x0F = .illegal .reservedOp ∧
    decode 0x11 = .illegal .argNotZero ∧ decode 0x14 = .illegal .argNotZero ∧ decode 0x16 = .illegal .argNotZero ∧
    decode 0x05 = .illegal .wrdCount ∧ decode 0xB5 = .illegal .wrdCount ∧ decode 0xF5 = .illegal .wrdCount ∧
    decode 0xFF = .illegal .reservedOp := by decide

theorem test_decode_table_words :
    decodeTableWord 8 0x01 = some .crc ∧ decodeTableWord 8 0x35 = some (.wrd 3) ∧ decodeTableWord 8 0x05 = none := by
  decide

/-! ## The checksum function -/

/-- V11: the bytes of "123456789". -/
theorem test_compute_v11 : compute [0x31, 0x32, 0x33, 0x34, 0x35, 0x36, 0x37, 0x38, 0x39] = 0xF7 := by decide +kernel

/-- V12: the bytes 00 to 1F. -/
theorem test_compute_v12 : compute ((List.range 32).map (BitVec.ofNat 8)) = 0x50 := by decide +kernel

/-! ## Commands, each one step from a small state by a table word -/

/-- V1: BE EF gives 0x92, STATUS 0x08. -/
theorem test_crc_v1 :
    (after (step ((loaded [0xBE, 0xEF]).withFetchWord 8 0x01))).map (fun s => (s.crc, s.status.toByte, s.cmd)) =
      some (0x92, 0x08, 0x01) := by decide +kernel

/-- V14: CRC ignores the old value. -/
theorem test_crc_empty_v14 :
    (after (step ((State.reset.setCrc 0x5A).withFetchWord 8 0x01))).map State.crc = some 0xFF := by decide +kernel

/-- V14: chaining from 0x0C over EF. -/
theorem test_crcc_chains_v14 :
    (after (step (((loaded [0xEF]).setCrc 0x0C).withFetchWord 8 0x02))).map State.crc = some 0x92 := by decide +kernel

/-- V14: an empty span leaves CRC unchanged. -/
theorem test_crcc_empty_v14 :
    (after (step ((State.reset.setCrc 0x5A).withFetchWord 8 0x02))).map (fun s => (s.crc, s.status.toByte)) =
      some (0x5A, 0x08) := by decide +kernel

/-- V14e: a wrong trailing byte; CRC is written all the same. -/
theorem test_ver_mismatch_v14e :
    (after (step ((loaded [0xBE, 0xEF, 0x93]).withFetchWord 8 0x03))).map (fun s => (s.status.toByte, s.crc)) =
      some (0x09, 0x92) := by decide +kernel

/-- V14a: LEN = 0. -/
theorem test_ver_short_v14a :
    (after (step ((State.reset.setCrc 0x5A).withFetchWord 8 0x03))).map (fun s => (s.status.toByte, s.crc)) =
      some (0x0B, 0x5A) := by decide +kernel

/-- V18b: 12 34 AA, byte 2 ignored; CRC unchanged. -/
theorem test_enc_v18b :
    (after (step ((loaded [0x12, 0x34, 0xAA]).withFetchWord 8 0x04))).map (fun s => (s.tx, s.status.toByte, s.crc)) =
      some (#v[0x12, 0x34, 0x37], 0x08, 0xFF) := by decide +kernel

/-- V18d: LEN = 1. -/
theorem test_enc_short_v18d :
    (after (step ((loaded [0x3F]).withFetchWord 8 0x04))).map (fun s => (s.tx, s.status.toByte)) =
      some (#v[0x00, 0x00, 0x00], 0x0B) := by decide +kernel

/-- V20: the CO2 response. -/
theorem test_wrd_v20 :
    (after (step ((loaded [0x01, 0xF4, 0x33, 0x80, 0x00, 0xA2, 0x40, 0x00, 0x08]).withFetchWord 8 0x35))).map
      (fun s => (s.w, s.status.toByte)) = some (#v[500, 0x8000, 0x4000, 0, 0, 0, 0, 0, 0, 0], 0x08) := by decide +kernel

/-- V23: the checksum byte of group 2 is flipped, so ERRIDX = 2 and W is unchanged. -/
theorem test_wrd_mismatch_v23 :
    (after (step ((loaded [0x01, 0xF4, 0x33, 0x80, 0x00, 0xA2, 0x40, 0x00, 0x09]).withFetchWord 8 0x35))).map
      (fun s => (s.w, s.status.toByte)) = some (State.reset.w, 0x29) := by decide +kernel

/-- V29: the fields in order, W[9] unchanged. -/
theorem test_pmd_v29 :
    (after (step ((loaded frameV29).withFetchWord 8 0x06))).map (fun s => (s.w, s.status.toByte)) =
      some (#v[0x0102, 0x0304, 0x0506, 0x0708, 0x090A, 0x0B0C, 0x0D0E, 0x0F10, 0x1112, 0x0000], 0x08) := by
  decide +kernel

/-- V27: the magic bytes swapped. -/
theorem test_pmd_bad_header_v27 :
    (after (step ((loaded ([0x4D, 0x42] ++ frameV3.drop 2)).withFetchWord 8 0x06))).map
      (fun s => (s.w, s.status.toByte)) = some (State.reset.w, 0x0A) := by decide +kernel

/-- V31: an illegal byte from reset. -/
theorem test_illegal_v31 :
    (after (step (State.reset.withFetchWord 8 0xB5))).map (fun s => (s.status.toByte, s.cmd, s.crc)) =
      some (0x0C, 0xB5, 0xFF) := by decide +kernel

/-! ## The host port -/

/-- V32: LEN is write-any-read-legal. -/
theorem test_len_v32 :
    ([0, 1, 31, 32, 33, 0x40, 0xFF] : List Byte).map lenClamp = [0, 1, 31, 32, 32, 32, 32] := by decide

/-- V33: the reads of 0x20 to 0x3F after reset. -/
theorem test_reset_reads_v33 :
    ((List.range 32).map fun k => hostRead State.reset (BitVec.ofNat 6 (0x20 + k))) =
      [0, 0, 0, 0xFF] ++ List.replicate 28 0x00 := by decide +kernel

/-- V34: writes to STATUS, W and a reserved address have no effect. -/
theorem test_ignored_writes_v34 :
    ([(0x22 : PortAddr), 0x28, 0x27].map fun a => after (step (presenting (.write a 0xFF)))) =
      [some State.reset, some State.reset, some State.reset] := by decide +kernel

/-- P2: the two bytes of W[1] = 0x8001 at 0x2A and 0x2B (20_memory.md R44). -/
theorem test_word_bytes :
    let s := State.reset.setWords 2 fun _ => 0x8001
    (hostRead s 0x2A, hostRead s 0x2B) = (0x80, 0x01) := by decide +kernel

/-- R21, R42: a byte written is read back, and reset forgets it. -/
theorem test_reset_event :
    (after (step ((loaded [0x01, 0x02]).setPending [.reset]))).map (fun s => (s.buf, s.len, s.resets)) =
      some ([], 0, 1) := by decide +kernel

/-- R67: `load` and `wrd 10`. -/
theorem test_pseudo_expansions :
    (Pseudo.load [0x12, 0x34]).expand = [.write 0x00 0x12, .write 0x01 0x34, .write 0x20 0x02] ∧
      (Pseudo.wrd 10).expand = [.write 0x21 0xA5] ∧ (Pseudo.rdw 9).expand = [.read 0x3A, .read 0x3B] := by decide

theorem test_pseudo_wf_refuses : (Pseudo.wrd 0).wf = false ∧ (Pseudo.load (List.replicate 33 0)).wf = false ∧
    (Pseudo.rdw 10).wf = false := by decide

/-! ## Witnesses: for each statement with hypotheses, states and operands that meet them -/

theorem witness_ResetGivesTheListedValues : (presenting .reset).pending = .reset :: [] := rfl

theorem witness_ResetDuringCommandAbandonsIt :
    (presenting (.resetInCommand 0x35)).pending = .resetInCommand 0x35 :: [] := rfl

theorem witness_BufferReadsAndWrites :
    (0x00 : PortAddr).toNat ≤ 0x1F ∧ (presenting (.read 0x00)).pending = .read 0x00 :: [] ∧
    (0x1F : PortAddr).toNat ≤ 0x1F ∧ (presenting (.write 0x1F 0xAB)).pending = .write 0x1F 0xAB :: [] := by decide

theorem witness_ControlRegisterReadsAndWrites :
    (presenting (.read 0x26)).pending = .read (BitVec.ofNat 6 (0x24 + (2 : Fin 3).val)) :: [] ∧
    (presenting (.write 0x20 0xFF)).pending = .write 0x20 0xFF :: [] ∧
    (presenting (.write 0x21 0xA5)).pending = .write 0x21 0xA5 :: [] ∧ decode 0xA5 = .command (.wrd 10) ∧
    (presenting (.write 0x21 0xB5)).pending = .write 0x21 0xB5 :: [] ∧ decode 0xB5 = .illegal .wrdCount ∧
    (presenting (.write 0x26 0x01)).pending = .write 0x26 0x01 :: [] ∧
    (0x26 : PortAddr) ∈ [(0x22 : PortAddr), 0x24, 0x25, 0x26] := by decide

theorem witness_ResultWordReadsAndWrites :
    (presenting (.read 0x28)).pending = .read (BitVec.ofNat 6 (0x28 + 2 * (0 : Fin 10).val)) :: [] ∧
    (presenting (.read 0x3B)).pending = .read (BitVec.ofNat 6 (0x29 + 2 * (9 : Fin 10).val)) :: [] ∧
    (presenting (.write 0x3B 0x55)).pending = .write 0x3B 0x55 :: [] ∧
    0x28 ≤ (0x3B : PortAddr).toNat ∧ (0x3B : PortAddr).toNat ≤ 0x3B := by decide

theorem witness_ReservedAddressesReadZeroIgnoreWrites :
    (presenting (.read 0x27)).pending = .read 0x27 :: [] ∧ (0x27 : PortAddr).toNat = 0x27 ∧
    (presenting (.write 0x3C 0x12)).pending = .write 0x3C 0x12 :: [] ∧ 0x3C ≤ (0x3C : PortAddr).toNat ∧
    0x3C ≤ (0x3F : PortAddr).toNat := by decide

theorem witness_BufferReadReturnsLatestWrite :
    (0x1F : PortAddr).toNat ≤ 0x1F ∧
    ∀ e ∈ [HostEvent.write 0x00 0x01, .write 0x21 0x01, .read 0x1F],
      e ≠ .reset ∧ (∀ x, e ≠ .resetInCommand x) ∧ ∀ x, e ≠ .write 0x1F x :=
  ⟨by decide, by simp⟩

/-- Writes to BUF, LEN and CRC and a read between the two reads: none is a CMD write or a reset. -/
theorem witness_ResultWordReadPairAndTearing :
    ∀ e ∈ [HostEvent.write 0x00 0x01, .write 0x20 0x05, .write 0x23 0x00, .read 0x22],
      e ≠ .reset ∧ (∀ v, e ≠ .resetInCommand v) ∧ ∀ v, e ≠ .write 0x21 v := by simp

theorem witness_StepRunsTheDecodedCommand :
    (presenting (.write 0x21 0x04)).pending = .write 0x21 0x04 :: [] ∧ decode 0x04 = .command .enc ∧
    (presenting (.write 0x21 0x00)).pending = .write 0x21 0x00 :: [] ∧ decode 0x00 = .illegal .reservedOp ∧
    (Instr.wrd 10).wf = true ∧ State.reset.pending = [] := by decide

theorem witness_IllegalBytesRaiseIllegalCommand :
    (presenting (.write 0x21 0x11)).pending = .write 0x21 0x11 :: [] ∧ decode 0x11 = .illegal .argNotZero := by decide

theorem witness_IllegalWrdCountAnswersIllegalCommand : (0 : Nibble).toNat = 0 ∧ 11 ≤ (11 : Nibble).toNat := by decide

theorem witness_ChecksumIsLinearAndSeesOneBit : [(0x12 : Byte), 0x34].length = [(0x00 : Byte), 0xFF].length := rfl

theorem witness_CrcChecksumsTheSpan :
    State.reset.len = 0 ∧ (loaded [0xBE, 0xEF]).len = 2 ∧ (loaded [0xBE, 0xEF]).bufByte 0 = 0xBE ∧
    (loaded [0xBE, 0xEF]).bufByte 1 = 0xEF ∧
    (List.range (loaded [0xBE, 0xEF, 0x92]).len.toNat).map (loaded [0xBE, 0xEF, 0x92]).bufByte =
      [0xBE, 0xEF] ++ [compute [0xBE, 0xEF]] := by decide +kernel

theorem witness_CrccContinuesTheChecksum :
    State.reset.len = 0 ∧ State.reset.crc = 0xFF ∧ ((loaded [0xEF]).setCrc 0x0C).crc = compute [0xBE] ∧
    (loaded [0xBE]).len = 1 ∧ (loaded [0xBE]).bufByte 0 = 0xBE ∧ ((loaded [0xEF]).setCrc 0x0C).len = 1 ∧
    ((loaded [0xEF]).setCrc 0x0C).bufByte 0 = 0xEF ∧
    (after (exec .crc (loaded [0xBE]))).map State.crc = some ((loaded [0xEF]).setCrc 0x0C).crc ∧
    (List.replicate 32 (0x00 : Byte)).length ≤ 32 ∧ ∀ d ∈ [[(0xBE : Byte)], []], d.length ≤ 32 := by decide +kernel

theorem witness_VerChecksTheTrailingByte :
    State.reset.len = 0 ∧
    (loaded [0xFF]).len = 1 ∧ (loaded [0xFF]).bufByte 0 = 0xFF ∧ (loaded [0x00]).len = 1 ∧
    (loaded [0x00]).bufByte 0 ≠ 0xFF ∧
    1 ≤ (loaded [0xBE, 0xEF, 0x92]).len.toNat ∧ (loaded [0xBE, 0xEF, 0x92]).len = 3 ∧
    (loaded [0xBE, 0xEF, 0x92]).bufByte 0 = 0xBE ∧ (loaded [0xBE, 0xEF, 0x92]).bufByte 1 = 0xEF ∧
    (0x92 : Byte) = crc8 0xFF ((List.range 2).map (loaded [0xBE, 0xEF, 0x92]).bufByte) ∧
    (0x92 : Byte) = (loaded [0xBE, 0xEF, 0x92]).bufByte 2 ∧
    (loaded [0xBE, 0xEF, 0x93]).len = 3 ∧ (loaded [0xBE, 0xEF, 0x93]).bufByte 0 = 0xBE ∧
    (loaded [0xBE, 0xEF, 0x93]).bufByte 1 = 0xEF ∧ (loaded [0xBE, 0xEF, 0x93]).bufByte 2 = 0x93 := by decide +kernel

theorem witness_EncBuildsTheFrame :
    (loaded [0x3F]).len.toNat < 2 ∧ 2 ≤ (loaded [0x3F, 0x86]).len.toNat ∧ (loaded [0x3F, 0x86]).len = 2 ∧
    (loaded [0x3F, 0x86]).bufByte 0 = 0x3F ∧ (loaded [0x3F, 0x86]).bufByte 1 = 0x86 ∧
    Instr.pmd ≠ .enc ∧ exec .pmd State.reset = .next (State.reset.raise .shortInput 0) :=
  ⟨by decide, by decide, by decide, by decide, by decide, by decide, rfl⟩

theorem witness_SensorOpcodeFrames :
    2 ≤ (loaded [0x3F, 0x86]).len.toNat ∧
    be16 ((loaded [0x3F, 0x86]).bufByte 0) ((loaded [0x3F, 0x86]).bufByte 1) = Config.sensorStop ∧
    be16 ((loaded [0x21, 0xB1]).bufByte 0) ((loaded [0x21, 0xB1]).bufByte 1) = Config.sensorStart ∧
    be16 ((loaded [0xEC, 0x05]).bufByte 0) ((loaded [0xEC, 0x05]).bufByte 1) = Config.sensorReadMeasurement := by
  decide +kernel

/-- The response of V20 and V4. -/
def responseV20 : List Byte := [0x01, 0xF4, 0x33, 0x80, 0x00, 0xA2, 0x40, 0x00, 0x08]

/-- `responseV20` with bit 0 of byte 4 flipped (V21). -/
def responseV21 : List Byte := [0x01, 0xF4, 0x33, 0x80, 0x01, 0xA2, 0x40, 0x00, 0x08]

theorem witness_WrdDecodesTheGroups :
    1 ≤ (3 : Nibble).toNat ∧ (10 : Nibble).toNat ≤ 10 ∧
    (loaded (responseV20.take 8)).len.toNat < 3 * (3 : Nibble).toNat ∧
    3 * (3 : Nibble).toNat ≤ (loaded responseV21).len.toNat ∧ 1 < (3 : Nibble).toNat ∧
    crc8 0xFF [(loaded responseV21).bufByte 3, (loaded responseV21).bufByte 4] ≠ (loaded responseV21).bufByte 5 ∧
    (∀ h < 1, crc8 0xFF [(loaded responseV21).bufByte (3 * h), (loaded responseV21).bufByte (3 * h + 1)] =
      (loaded responseV21).bufByte (3 * h + 2)) ∧
    (loaded responseV20).len = 9 ∧ (List.range 9).map (loaded responseV20).bufByte = responseV20 ∧
    ∀ h < 3, crc8 0xFF [(loaded responseV20).bufByte (3 * h), (loaded responseV20).bufByte (3 * h + 1)] =
      (loaded responseV20).bufByte (3 * h + 2) := by decide +kernel

/-- The ten groups of V25 fill the largest count. -/
theorem witness_WrdDecodesTheGroups_ten :
    let s := loaded ([0x00, 0x00, 0x81, 0x11, 0x11, 0x69, 0x22, 0x22, 0x60, 0x33, 0x33, 0x88, 0x44, 0x44, 0x72] ++
      [0x55, 0x55, 0x9A, 0x66, 0x66, 0x93, 0x77, 0x77, 0x7B, 0x88, 0x88, 0x56, 0x99, 0x99, 0xBE])
    3 * (10 : Nibble).toNat ≤ s.len.toNat ∧
      ∀ h < (10 : Nibble).toNat, crc8 0xFF [s.bufByte (3 * h), s.bufByte (3 * h + 1)] = s.bufByte (3 * h + 2) := by
  decide +kernel

theorem witness_EncThenWrdRoundTrip :
    2 ≤ (loaded [0x12, 0x34]).len.toNat ∧ (loaded [0x12, 0x34]).bufByte 0 = hiByte 0x1234 ∧
    (loaded [0x12, 0x34]).bufByte 1 = loByte 0x1234 ∧
    (after (exec .enc (loaded [0x12, 0x34]))).map State.tx = some #v[0x12, 0x34, 0x37] ∧
    (loaded [0x12, 0x34, 0x37]).len = 3 ∧ (loaded [0x12, 0x34, 0x37]).bufByte 0 = 0x12 ∧
    (loaded [0x12, 0x34, 0x37]).bufByte 1 = 0x34 ∧ (loaded [0x12, 0x34, 0x37]).bufByte 2 = 0x37 := by decide +kernel

theorem witness_OneFlippedBitIsDetected :
    1 ≤ (3 : Nibble).toNat ∧ (3 : Nibble).toNat ≤ 10 ∧ 3 * (3 : Nibble).toNat ≤ (loaded responseV20).len.toNat ∧
    (∀ h < (3 : Nibble).toNat, compute [(loaded responseV20).bufByte (3 * h), (loaded responseV20).bufByte (3 * h + 1)] =
      (loaded responseV20).bufByte (3 * h + 2)) ∧
    1 < (3 : Nibble).toNat ∧ (loaded responseV21).len = (loaded responseV20).len ∧
    ∀ x, (loaded responseV21).bufByte x =
      if x = 3 * 1 + 1 then (loaded responseV20).bufByte x ^^^ 1#8 <<< 0 else (loaded responseV20).bufByte x := by
  refine ⟨by decide, by decide, by decide, by decide +kernel, by decide, by decide, fun x => ?_⟩
  by_cases h : x < 9
  · interval_cases x <;> decide +kernel
  · obtain ⟨k, rfl⟩ := Nat.exists_eq_add_of_le (Nat.not_lt.1 h)
    rw [if_neg (by omega)]
    simp only [State.bufByte, loaded, responseV20, responseV21, Memory.get?, List.zipIdx, List.map]
    simp (disch := omega) only [if_neg]

theorem witness_PmdExtractsTheFields :
    (loaded (frameV3.take 31)).len.toNat < 32 ∧
    32 ≤ (loaded ([0x42, 0x00] ++ frameV3.drop 2)).len.toNat ∧
    (loaded ([0x42, 0x00] ++ frameV3.drop 2)).bufByte 1 ≠ 0x4D ∧
    32 ≤ (loaded frameV3).len.toNat ∧ (loaded frameV3).len = 32 ∧ (loaded frameV3).bufByte 0 = 0x42 ∧
    (loaded frameV3).bufByte 1 = 0x4D ∧ (loaded frameV3).bufByte 0x0D = 0x0A ∧
    ∀ j < 32, j ≠ 0 → j ≠ 1 → j ≠ 0x0D → (loaded frameV3).bufByte j = 0x00 := by decide +kernel

theorem witness_PmdIgnoresTheOtherBytes :
    let s := loaded frameV3
    let u := ((loaded frameV3).setBuf 0x02 0xEE).setBuf 0x1F 0xEE
    u.len = s.len ∧ u.w = s.w ∧ u.bufByte 0 = s.bufByte 0 ∧ u.bufByte 1 = s.bufByte 1 ∧
      (∀ j < 0x1C, 0x0A ≤ j → u.bufByte j = s.bufByte j) ∧ u ≠ s := by decide +kernel

theorem witness_BadHeaderIsRejected :
    (loaded ([0x00, 0x4D] ++ frameV3.drop 2)).len = 32 ∧
    (loaded ([0x00, 0x4D] ++ frameV3.drop 2)).bufByte 0 ≠ 0x42 := by decide +kernel

theorem witness_StatusCodesOfCommands :
    (∃ t, exec .pmd State.reset = .next t ∧ t.status.err = 3) ∧
    (∃ t, exec (.wrd 1) (loaded [0x00, 0x00, 0x00]) = .next t ∧ t.status.err = 1) ∧
    (∃ t, exec .pmd (loaded (List.replicate 32 0x00)) = .next t ∧ t.status.err = 2) ∧
    (∃ t, exec (.wrd 0) State.reset = .next t ∧ t.status.err = 4) ∧
    (∃ t, exec (.wrd 1) (loaded [0x00, 0x00, 0x81]) = .next t ∧ (Instr.wrd 1).wf = true ∧ t.status.err = 0) ∧
    (presenting (.write 0x21 0xFF)).pending = .write 0x21 0xFF :: [] :=
  ⟨⟨_, rfl, rfl⟩, ⟨_, rfl, by decide +kernel⟩, ⟨_, rfl, by decide +kernel⟩, ⟨_, rfl, rfl⟩,
    ⟨_, rfl, by decide, by decide +kernel⟩, rfl⟩

theorem witness_ChecksumMismatchIsReported :
    1 ≤ (loaded [0xBE, 0xEF, 0x93]).len.toNat ∧
    compute (loaded [0xBE, 0xEF, 0x93]).payload ≠ (loaded [0xBE, 0xEF, 0x93]).trailer ∧
    1 ≤ (3 : Nibble).toNat ∧ (3 : Nibble).toNat ≤ 10 ∧ 3 * (3 : Nibble).toNat ≤ (loaded responseV21).len.toNat ∧
    1 < (3 : Nibble).toNat ∧ (loaded responseV21).groupValid 1 = false ∧
    (∀ h < 1, (loaded responseV21).groupValid h = true) ∧
    (after (exec (.wrd 3) (loaded responseV21))).map (fun t => t.status.err) = some 1 := by decide +kernel

theorem witness_ShortInputIsReported :
    State.reset.len.toNat < 1 ∧ (loaded [0x3F]).len.toNat < 2 ∧ 1 ≤ (1 : Nibble).toNat ∧ (10 : Nibble).toNat ≤ 10 ∧
    (loaded [0x01, 0xF4]).len.toNat < 3 * (1 : Nibble).toNat ∧
    (loaded (frameV3.take 29)).len.toNat < 3 * (10 : Nibble).toNat ∧ (loaded (frameV3.take 31)).len.toNat < 32 := by
  decide

theorem witness_OneOutcomeInPriorityOrder :
    (presenting (.write 0x21 0x00)).pending = .write 0x21 0x00 :: [] ∧ decode 0x00 = .illegal .reservedOp ∧
    ((loaded [0x01, 0xF4]).setPending [.write 0x21 0x15]).pending = .write 0x21 0x15 :: [] ∧
    decode 0x15 = .command (.wrd 1) ∧ (loaded [0x01, 0xF4]).len.toNat < bytesNeeded (.wrd 1) ∧
    decode 0x35 = .command (.wrd 3) ∧ bytesNeeded (.wrd 3) ≤ (loaded responseV21).len.toNat ∧
    ContentFails (.wrd 3) (loaded responseV21) 1 1 ∧
    bytesNeeded .crc ≤ State.reset.len.toNat ∧ ∀ e g, ¬ ContentFails .crc State.reset e g :=
  ⟨rfl, by decide, rfl, by decide, by decide, by decide, by decide, by unfold ContentFails; decide +kernel, by decide,
    fun _ _ h => h⟩

theorem witness_CodecCommandsFrame : ∃ t, exec .ver (loaded [0xBE, 0xEF, 0x93]) = .next t := ⟨_, rfl⟩

theorem witness_EncFrame : ∃ t, exec .enc (loaded [0x3F, 0x86]) = .next t := ⟨_, rfl⟩

theorem witness_ResultWordCommandsFrame :
    (∃ t, exec (.wrd 3) (loaded responseV20) = .next t) ∧ (∃ t, exec .pmd (loaded frameV3) = .next t) ∧
    ∃ t, exec (.wrd 3) (loaded responseV21) = .next t ∧ t.status.err ≠ 0 :=
  ⟨⟨_, rfl⟩, ⟨_, rfl⟩, ⟨_, rfl, by decide +kernel⟩⟩

/-- Two buffers that differ only at and above LEN = 2. -/
theorem witness_CommandsReadOnlyTheSpan :
    let s := loaded [0x3F, 0x86]
    (∀ j < s.len.toNat, State.bufByte { s with buf := [(0, 0x3F), (1, 0x86), (2, 0x77)], resets := 5 } j = s.bufByte j) ∧
      ∃ t, exec .enc s = .next t := ⟨by decide +kernel, ⟨_, rfl⟩⟩

theorem witness_OnlyTheirWritersChangeRegisters :
    let s := (loaded [0x3F, 0x86]).setPending [.write 0x21 0x04]
    s.pending = .write 0x21 0x04 :: [] ∧ (HostEvent.write 0x21 0x04 ≠ .reset) ∧
      (∀ v, HostEvent.write 0x21 0x04 ≠ .resetInCommand v) ∧ ∃ t, step s = .next t ∧ t.tx ≠ s.tx :=
  ⟨rfl, by decide, by simp, ⟨_, rfl, by decide +kernel⟩⟩

theorem witness_RepeatingTransactions :
    (presenting (.read 0x3F)).pending = .read 0x3F :: [] ∧ (0x1F : PortAddr) ≠ 0x21 ∧
    (∃ t, runEvents [.write 0x1F 0x01] State.reset = .next t) ∧ Instr.wrd 3 ≠ .crcc ∧
    ∃ t, exec (.wrd 3) (loaded responseV20) = .next t :=
  ⟨rfl, by decide, ⟨_, rfl⟩, by decide, ⟨_, rfl⟩⟩

theorem witness_LoadFillsTheSpan : frameV3.length ≤ 32 := by decide

/-- A state that meets the invariant and has run a command, with a step that runs another. -/
theorem witness_EveryStepKeepsTheInvariant :
    ∃ s t : State, s.Inv ∧ s.status.done = true ∧ s.pending ≠ [] ∧ step s = .next t := by
  refine ⟨{ loaded responseV21 with
    cmd := 0x35, status := { err := 1, done := true, errIdx := 1 }, pending := [.write 0x21 0x04] }, _,
    ⟨by decide, by decide, .inl rfl, fun _ => ?_, fun h => absurd h (by decide)⟩, rfl, by decide, rfl⟩
  show (1 : BitVec 3) ∈ _ ∧ _ ∧ _
  decide

end Sys2Proof.Tests
end

section
/-! PROOFS. The host port (20_memory.md R42 to R45, R50): what a read of each address returns, what a write to it does, what
the step that takes either gives, and runs in which events stand between two others. -/

namespace Sys2Proof.Machine

/-! ### What a read returns -/

theorem hostRead_buf (s : State) {a : PortAddr} (h : a.toNat ≤ 0x1F) : hostRead s a = s.bufByte a.toNat := by
  have h' : a.toNat < 0x20 := by omega
  simp [hostRead, h']

theorem hostRead_len (s : State) : hostRead s 0x20 = s.len := rfl

theorem hostRead_cmd (s : State) : hostRead s 0x21 = s.cmd := rfl

theorem hostRead_status (s : State) : hostRead s 0x22 = s.status.toByte := rfl

theorem hostRead_crc (s : State) : hostRead s 0x23 = s.crc := rfl

theorem hostRead_tx (s : State) (k : Fin 3) : hostRead s (BitVec.ofNat 6 (0x24 + k.val)) = s.tx[k] := by
  fin_cases k <;> rfl

/-- The high byte of a result word is at its lower, even address. -/
theorem hostRead_wordHigh (s : State) (k : Fin 10) :
    hostRead s (BitVec.ofNat 6 (0x28 + 2 * k.val)) = hiByte s.w[k] := by
  fin_cases k <;> rfl

theorem hostRead_wordLow (s : State) (k : Fin 10) :
    hostRead s (BitVec.ofNat 6 (0x29 + 2 * k.val)) = loByte s.w[k] := by
  fin_cases k <;> rfl

theorem hostRead_reserved (s : State) {a : PortAddr} (h : a.toNat = 0x27 ∨ 0x3C ≤ a.toNat) : hostRead s a = 0x00 := by
  rw [hostRead, if_neg (by omega), if_neg (by omega), if_neg (by omega), if_neg (by omega), if_neg (by omega),
    dif_neg (by omega), dif_neg (by omega)]

@[simp] theorem hostRead_setPending (s : State) (es : List HostEvent) (a : PortAddr) :
    hostRead (s.setPending es) a = hostRead s a := rfl

/-! ### The bytes a read puts together or takes apart -/

/-- STATUS as a number (20_memory.md R43). -/
theorem Status.toByte_eq_ofNat (st : Status) :
    st.toByte = BitVec.ofNat 8 (16 * st.errIdx.toNat + 8 * st.done.toNat + st.err.toNat) := by
  obtain ⟨err, done, idx⟩ := st
  revert err done idx
  decide

theorem hiByte_eq_ofNat (x : Word16) : hiByte x = BitVec.ofNat 8 (x.toNat / 256) := by
  apply BitVec.eq_of_toNat_eq
  simp [hiByte, Nat.shiftRight_eq_div_pow]

theorem loByte_eq_ofNat (x : Word16) : loByte x = BitVec.ofNat 8 (x.toNat % 256) := by
  apply BitVec.eq_of_toNat_eq
  simp [loByte]

/-- The two bytes of a word make the word. -/
theorem be16_hiByte_loByte (x : Word16) : be16 (hiByte x) (loByte x) = x :=
  (BitVec.extractLsb'_append_extractLsb'_eq_extractLsb' (start₁ := 0) (start₂ := 8) rfl).trans
    BitVec.extractLsb'_eq_self

theorem lenClamp_eq_ofNat (v : Byte) : lenClamp v = BitVec.ofNat 8 (min v.toNat 32) := by
  apply BitVec.eq_of_toNat_eq
  rw [lenClamp_toNat, BitVec.toNat_ofNat]
  omega

/-! ### The step that takes a read or a write -/

theorem step_read {s : State} {a : PortAddr} {rest : List HostEvent} (h : s.pending = .read a :: rest) :
    step s = .next ((s.setPending rest).pushRead (hostRead s a)) :=
  step_of_pending h

theorem step_write {s : State} {a : PortAddr} {v : Byte} {rest : List HostEvent} (h : s.pending = .write a v :: rest) :
    step s = hostWrite a v (s.setPending rest) :=
  step_of_pending h

theorem hostWrite_buf (s : State) {a : PortAddr} (v : Byte) (h : a.toNat ≤ 0x1F) :
    hostWrite a v s = .next (s.setBuf a.toNat v) := if_pos (by omega)

theorem hostWrite_len (s : State) (v : Byte) : hostWrite 0x20 v s = .next (s.setLen (lenClamp v)) := rfl

theorem hostWrite_cmd (s : State) (v : Byte) : hostWrite 0x21 v s = runCommand v s := rfl

theorem hostWrite_crc (s : State) (v : Byte) : hostWrite 0x23 v s = .next (s.setCrc v) := rfl

/-- STATUS, TX, W and the reserved addresses ignore writes. -/
theorem hostWrite_ignored (s : State) {a : PortAddr} (v : Byte) (h : a.toNat = 0x22 ∨ 0x24 ≤ a.toNat) :
    hostWrite a v s = .next s := by
  rw [hostWrite, if_neg (by omega), if_neg (by omega), if_neg (by omega), if_neg (by omega)]

theorem runCommand_of_decode_command {v : Byte} {i : Instr} (s : State) (h : decode v = .command i) :
    runCommand v s = exec i (s.setCmd v) := by
  simp [runCommand, h]

theorem runCommand_of_decode_illegal {v : Byte} {why : DecodeError} (s : State) (h : decode v = .illegal why) :
    runCommand v s = .next ((s.setCmd v).raise .illegalCommand 0) := by
  simp [runCommand, h]

/-! ### Every event has a next state -/

theorem exec_total (i : Instr) (s : State) : ∃ t, exec i s = .next t := by
  cases i <;> exact ⟨_, rfl⟩

theorem runCommand_total (v : Byte) (s : State) : ∃ t, runCommand v s = .next t := by
  cases h : decode v with
  | command i => simpa only [runCommand_of_decode_command s h] using exec_total i (s.setCmd v)
  | illegal why => exact ⟨_, runCommand_of_decode_illegal s h⟩

theorem applyEvent_total (e : HostEvent) (s : State) : ∃ t, applyEvent e s = .next t := by
  cases e with
  | read a => exact ⟨_, rfl⟩
  | reset => exact ⟨_, rfl⟩
  | resetInCommand v => exact ⟨_, rfl⟩
  | write a v =>
    simp only [applyEvent, hostWrite]
    split_ifs
    · exact ⟨_, rfl⟩
    · exact ⟨_, rfl⟩
    · exact runCommand_total v s
    · exact ⟨_, rfl⟩
    · exact ⟨_, rfl⟩

/-! ### Runs through a stretch of events -/

/-- What holds of a state and is kept by each event of `es` holds when they have all taken effect and `fs` is still to
come. -/
theorem runEvents_append_keeps {P : State → Prop} {es : List HostEvent} (fs : List HostEvent)
    (keep : ∀ e ∈ es, ∀ s q t, P s → EventCase e (s.setPending q) t → P t) {s : State} (hs : P s) :
    ∃ t, runEvents (es ++ fs) s = runEvents fs t ∧ P t := by
  induction es generalizing s with
  | nil => exact ⟨s, rfl, hs⟩
  | cons e es ih =>
    obtain ⟨u, hu⟩ := applyEvent_total e (s.setPending (es ++ fs))
    have hP : P u := keep e (by simp) s _ u hs (applyEvent_cases hu)
    obtain ⟨t, ht, hPt⟩ := ih (fun e he => keep e (by simp [he])) hP
    exact ⟨t, (runEvents_cons hu).trans ht, hPt⟩

theorem runEvents_read (s : State) (a : PortAddr) (es : List HostEvent) :
    runEvents (.read a :: es) s = runEvents es ((s.setPending es).pushRead (hostRead s a)) :=
  runEvents_cons rfl

/-- What the reads returned so far stays. -/
theorem EventCase.reads_prefix {e : HostEvent} {s t : State} (h : EventCase e s t) : s.reads <+: t.reads := by
  rcases h.reads_eq with ⟨a, -, hr⟩ | ⟨-, hr⟩ <;> simp [hr]

/-- The event is neither a CMD write nor a reset: no event that can change W (10_state.md R28). -/
def HostEvent.keepsWords (e : HostEvent) : Prop :=
  e ≠ .reset ∧ (∀ v, e ≠ .resetInCommand v) ∧ ∀ v, e ≠ .write 0x21 v

theorem EventCase.w_eq_of_keepsWords {e : HostEvent} {s t : State} (h : EventCase e s t) (he : e.keepsWords) :
    t.w = s.w := by
  obtain ⟨hr, hrc, hc⟩ := he
  exact h.w_eq hr hrc hc

/-- Through any events the values read only grow, and through events that keep the result words W stays. -/
theorem runEvents_append_reads_w (s : State) (es fs : List HostEvent) :
    ∃ t, runEvents (es ++ fs) s = runEvents fs t ∧ s.reads <+: t.reads ∧ ((∀ e ∈ es, e.keepsWords) → t.w = s.w) := by
  refine runEvents_append_keeps fs (fun e he u q t hu h => ?_) ⟨List.prefix_rfl, fun _ => rfl⟩
  obtain ⟨hreads, hw⟩ := hu
  exact ⟨hreads.trans h.reads_prefix, fun hes => (h.w_eq_of_keepsWords (hes e he)).trans (hw hes)⟩

/-! ### The statements -/

/-- Settles O3: the read and write rules of BUF (R42). -/
theorem bufferReadsAndWrites : Obligations.BufferReadsAndWrites := by
  intro s a rest ha
  refine ⟨fun hp => ?_, fun v hp => ?_⟩
  · rw [step_read hp, hostRead_buf s ha]
    rfl
  · refine ⟨(s.setPending rest).setBuf a.toNat v, ?_, ?_, fun j hj => ?_, rfl⟩
    · rw [step_write hp, hostWrite_buf _ v ha]
    · exact State.setBuf_bufByte_same _ _ _
    · rw [State.setBuf_bufByte_other _ _ _ hj, State.setPending_bufByte]

/-- Settles O9: the run splits into the first read, the events between, through which W stays unless a CMD write or a reset
is among them, and the second read (R50). -/
theorem resultWordReadPairAndTearing : Obligations.ResultWordReadPairAndTearing := by
  intro s k es
  obtain ⟨t, hrun, ⟨seen, hseen⟩, hw⟩ := runEvents_append_reads_w
    ((s.setPending (es ++ [.read (BitVec.ofNat 6 (0x29 + 2 * k.val))])).pushRead (hiByte s.w[k])) es
    [.read (BitVec.ofNat 6 (0x29 + 2 * k.val))]
  refine ⟨(t.setPending []).pushRead (loByte t.w[k]), seen, hiByte s.w[k], loByte t.w[k], ?_, ?_, rfl, rfl, fun hes => ?_⟩
  · rw [List.cons_append, runEvents_read, hostRead_wordHigh, hrun, runEvents_read, hostRead_wordLow, runEvents_nil]
    rfl
  · simp [← hseen]
  · have hwt : t.w = s.w := hw hes
    exact ⟨by rw [hwt, be16_hiByte_loByte], hwt⟩

/-- Settles O4: the read and write rules of LEN, CMD, STATUS, CRC and TX (R43). -/
theorem controlRegisterReadsAndWrites : Obligations.ControlRegisterReadsAndWrites := by
  intro s rest
  refine ⟨fun a v hav hp => ?_, fun v hp => ?_, fun v i hp hd => ?_, fun v why hp hd => ?_, fun v hp => ?_,
    fun a v ha hp => ?_⟩
  · have hv : hostRead s a = v := by
      rcases hav with ⟨rfl, rfl⟩ | ⟨rfl, rfl⟩ | ⟨rfl, rfl⟩ | ⟨rfl, rfl⟩ | ⟨k, rfl, rfl⟩
      · exact hostRead_len s
      · exact hostRead_cmd s
      · exact (hostRead_status s).trans s.status.toByte_eq_ofNat
      · exact hostRead_crc s
      · exact hostRead_tx s k
    rw [step_read hp, hv]
    rfl
  · rw [step_write hp, hostWrite_len, lenClamp_eq_ofNat]
    rfl
  · rw [step_write hp, hostWrite_cmd, runCommand_of_decode_command _ hd]
    rfl
  · rw [step_write hp, hostWrite_cmd, runCommand_of_decode_illegal _ hd]
    rfl
  · rw [step_write hp, hostWrite_crc]
    rfl
  · have ha' : a.toNat = 0x22 ∨ 0x24 ≤ a.toNat := by
      simp only [List.mem_cons, List.not_mem_nil, or_false] at ha
      rcases ha with rfl | rfl | rfl | rfl <;> decide
    rw [step_write hp, hostWrite_ignored _ v ha']
    rfl

/-- Settles O5: the two bytes of a result word as numbers, and the ignored writes (R44). -/
theorem resultWordReadsAndWrites : Obligations.ResultWordReadsAndWrites := by
  intro s rest
  refine ⟨fun k => ⟨fun hp => ?_, fun hp => ?_⟩, fun a v hlo _ hp => ?_⟩
  · rw [step_read hp, hostRead_wordHigh, hiByte_eq_ofNat]
    rfl
  · rw [step_read hp, hostRead_wordLow, loByte_eq_ofNat]
    rfl
  · rw [step_write hp, hostWrite_ignored _ v (by omega)]
    rfl

/-- Settles O6: the reserved addresses (R45). -/
theorem reservedAddressesReadZeroIgnoreWrites : Obligations.ReservedAddressesReadZeroIgnoreWrites := by
  intro s a rest ha
  refine ⟨fun hp => ?_, fun v hp => ?_⟩
  · rw [step_read hp, hostRead_reserved s ha]
    rfl
  · rw [step_write hp, hostWrite_ignored _ v (by omega)]
    rfl

end Sys2Proof.Machine
end

section
/-! PROOFS. Encoding (30_encoding.md R60, R63, R72): the fields of a command byte as numbers, which bytes are legal, and the
frames that ENC builds for the sensor opcodes. -/

namespace Sys2Proof

/-! ### The fields of a command byte -/

theorem opField_toNat (b : Byte) : (opField b).toNat = b.toNat % 16 := by
  simp [opField]

theorem argField_toNat (b : Byte) : (argField b).toNat = b.toNat / 16 := by
  have := b.isLt
  simp only [argField, BitVec.extractLsb'_toNat, Nat.shiftRight_eq_div_pow]
  omega

theorem argField_eq_zero_iff (b : Byte) : argField b = 0 ↔ b.toNat / 16 = 0 := by
  rw [← argField_toNat, ← BitVec.toNat_inj]
  rfl

/-! ### Legal and illegal bytes -/

theorem exists_requireNoArg_eq_command_iff (arg : Nibble) (i : Instr) :
    (∃ j, requireNoArg arg i = .command j) ↔ arg = 0 := by
  unfold requireNoArg
  split_ifs with h
  · simp [h]
  · exact iff_of_false (by simp) h

theorem wrdCountLegal_argField_iff (b : Byte) :
    wrdCountLegal (argField b) = true ↔ 1 ≤ b.toNat / 16 ∧ b.toNat / 16 ≤ 10 := by
  simp [wrdCountLegal, argField_toNat, Config.nMax]

/-- R63 by the fields: the argument is 0 for the five operations without one, and WRD's is a legal count. -/
theorem exists_decode_eq_command_iff (b : Byte) :
    (∃ i, decode b = .command i) ↔
      (b.toNat % 16 ∈ [1, 2, 3, 4, 6] ∧ b.toNat / 16 = 0) ∨
        (b.toNat % 16 = 5 ∧ 1 ≤ b.toNat / 16 ∧ b.toNat / 16 ≤ 10) := by
  rw [← opField_toNat, ← argField_eq_zero_iff, ← wrdCountLegal_argField_iff]
  unfold decode
  split
  case h_5 hop => cases wrdCountLegal (argField b) <;> simp [hop]
  case h_7 h1 h2 h3 h4 h5 h6 =>
    simp only [List.mem_cons, List.not_mem_nil, or_false, reduceCtorEq, exists_false, false_iff]
    rintro (⟨hop, -⟩ | ⟨hop, -⟩)
    · tauto
    · exact h5 hop
  all_goals simp [exists_requireNoArg_eq_command_iff, *]

theorem exists_decode_eq_illegal_iff (b : Byte) :
    (∃ why, decode b = .illegal why) ↔ ¬ ∃ i, decode b = .command i := by
  cases decode b <;> simp

end Sys2Proof

namespace Sys2Proof.Machine

/-- Settles O13: legality by the fields of the byte; an illegal byte's step is the CMD clause of R43. -/
theorem illegalBytesRaiseIllegalCommand : Obligations.IllegalBytesRaiseIllegalCommand := by
  refine ⟨fun v => ⟨?_, ?_⟩, by decide +kernel, by decide +kernel, fun s v why rest hp hd => ?_⟩
  · rw [exists_decode_eq_illegal_iff, exists_decode_eq_command_iff]
    simp only [List.mem_cons, List.not_mem_nil, or_false]
    omega
  · rw [exists_decode_eq_command_iff]
    simp only [List.mem_cons, List.not_mem_nil, or_false, ← BitVec.toNat_inj, BitVec.reduceToNat]
    omega
  · obtain ⟨-, -, -, illegalWrite, -⟩ := controlRegisterReadsAndWrites s rest
    exact illegalWrite v why hp hd

/-! ### The frame of a word -/

theorem hiByte_be16 (hi lo : Byte) : hiByte (be16 hi lo) = hi :=
  BitVec.extractLsb'_append_eq_left

theorem loByte_be16 (hi lo : Byte) : loByte (be16 hi lo) = lo :=
  BitVec.extractLsb'_append_eq_right

/-- The command frame of a word (30_encoding.md R71): its bytes, high first, and their checksum. -/
def wordFrame (op : Word16) : Vector Byte 3 := #v[hiByte op, loByte op, compute [hiByte op, loByte op]]

theorem wordFrame_be16 (hi lo : Byte) : wordFrame (be16 hi lo) = #v[hi, lo, compute [hi, lo]] := by
  simp only [wordFrame, hiByte_be16, loByte_be16]

/-- ENC puts into TX the frame of the word that the first two bytes of BUF make. -/
theorem exec_enc_eq_wordFrame {s : State} (h : 2 ≤ s.len.toNat) :
    exec .enc s = .next (s.setTx (wordFrame (be16 (s.bufByte 0) (s.bufByte 1)))).finish := by
  rw [wordFrame_be16]
  exact exec_of_case (.encOk s h)

theorem wordFrame_sensorStop : wordFrame Config.sensorStop = #v[0x3F, 0x86, 0x76] := by decide +kernel

theorem wordFrame_sensorStart : wordFrame Config.sensorStart = #v[0x21, 0xB1, 0x27] := by decide +kernel

theorem wordFrame_sensorReadMeasurement : wordFrame Config.sensorReadMeasurement = #v[0xEC, 0x05, 0xB6] := by
  decide +kernel

/-- Settles O24: TX holds the frame of the opcode, and the three frames are computed (R72). -/
theorem sensorOpcodeFrames : Obligations.SensorOpcodeFrames := by
  refine ⟨rfl, rfl, rfl, fun s op hlen hop => ⟨_, exec_enc_eq_wordFrame hlen, ?_⟩⟩
  rw [State.finish_tx, State.setTx_tx, hop]
  refine ⟨?_, ?_, ?_⟩
  · rintro rfl
    exact wordFrame_sensorStop
  · rintro rfl
    exact wordFrame_sensorStart
  · rintro rfl
    exact wordFrame_sensorReadMeasurement

end Sys2Proof.Machine
end

section
/-! PROOFS. The checksum function and the commands of the checksum codec (40_checksum.md R80, R82 to R84): the shift as
arithmetic, chaining and residue, what CRC, CRCC and VER answer, and the chunked computation as a run of host events. -/

namespace Sys2Proof.Machine

/-! ### The checksum function -/

/-- The shift of the pseudocode in numbers: double modulo 256, and XOR the polynomial if the high bit was set (R80). -/
theorem crcShift_eq_ofNat (c : Byte) :
    crcShift c = BitVec.ofNat 8 (2 * c.toNat) ^^^ if 128 ≤ c.toNat then 0x31 else 0x00 := by
  have hdouble : c <<< 1 = BitVec.ofNat 8 (2 * c.toNat) := by
    apply BitVec.eq_of_toNat_eq
    simp [Nat.shiftLeft_eq, Nat.mul_comm]
  have hhigh : c.getLsbD 7 = decide (128 ≤ c.toNat) := c.msb_eq_getLsbD_last.symm.trans c.msb_eq_decide
  rw [crcShift, hdouble, hhigh]
  by_cases h : 128 ≤ c.toNat <;> simp [h, Config.crcPoly]

theorem crcShifts_eq_iterate (k : Nat) (c : Byte) : crcShifts k c = crcShift^[k] c := by
  induction k generalizing c with
  | zero => rfl
  | succ k ih => exact ih (crcShift c)

theorem crcShifts_zero_byte (k : Nat) : crcShifts k 0 = 0 := by
  induction k with
  | zero => rfl
  | succ k ih => exact ih

theorem crc8Step_self (c : Byte) : crc8Step c c = 0 := by
  rw [crc8Step, BitVec.xor_self]
  exact crcShifts_zero_byte 8

@[simp] theorem crc8_nil (i : Byte) : crc8 i [] = i := rfl

@[simp] theorem crc8_cons (i b : Byte) (bs : List Byte) : crc8 i (b :: bs) = crc8 (crc8Step i b) bs := rfl

/-- Chaining (R81): the checksum of a list continues from that of its first part. -/
theorem crc8_append (i : Byte) (a b : List Byte) : crc8 i (a ++ b) = crc8 (crc8 i a) b := by
  induction a generalizing i with
  | nil => rfl
  | cons x a ih => exact ih (crc8Step i x)

/-- Zero residue (R81): a list that ends in its own checksum has checksum 0. -/
theorem crc8_append_self (i : Byte) (a : List Byte) : crc8 i (a ++ [crc8 i a]) = 0 := by
  rw [crc8_append, crc8_cons, crc8_nil, crc8Step_self]

theorem compute_append (a b : List Byte) : compute (a ++ b) = crc8 (compute a) b := crc8_append _ a b

theorem compute_BE : compute [0xBE] = 0x0C := by decide +kernel

theorem compute_BE_EF : compute [0xBE, 0xEF] = 0x92 := by decide +kernel

/-- Settles O15: the eight shifts are those of `crcShift_eq_ofNat`, and `crc8` folds by definition (R80). -/
theorem checksumFollowsThePseudocode : Obligations.ChecksumFollowsThePseudocode := by
  refine ⟨fun c b => ?_, crc8_nil, crc8_cons, fun _ => rfl, compute_BE_EF⟩
  rw [crc8Step, crcShifts_eq_iterate, funext crcShift_eq_ofNat]

/-! ### The spans of the examples -/

theorem State.span_of_len {s : State} {v : Byte} (h : s.len = v) : s.span = s.bufTo v.toNat := by
  rw [State.span, h]

/-! ### CRC and CRCC -/

theorem exec_crc (s : State) : exec .crc s = .next (s.setCrc (compute s.span)).finish := rfl

theorem exec_crcc (s : State) : exec .crcc s = .next (s.setCrc (crc8 s.crc s.span)).finish := rfl

/-- Settles O19: CRC's value by the span: empty, ending in its own checksum, or BE EF (R82). -/
theorem crcChecksumsTheSpan : Obligations.CrcChecksumsTheSpan := by
  refine ⟨by decide, fun s => ⟨rfl, fun _ => rfl, fun hlen => ?_, fun p hp => ?_, fun hlen h0 h1 => ?_⟩⟩
  · rw [exec_crc, State.span_of_len hlen]
    rfl
  · have hres : compute s.span = 0x00 := by
      rw [State.span, State.bufTo, hp]
      exact crc8_append_self _ p
    rw [exec_crc, hres]
    rfl
  · have hspan : s.span = [0xBE, 0xEF] := by rw [State.span_of_len hlen, ← h0, ← h1]; rfl
    rw [exec_crc, hspan, compute_BE_EF]
    rfl

/-- From the checksum of `p`, CRCC gives that of `p` followed by the span (R83). -/
theorem exec_crcc_of_compute {s : State} {p : List Byte} (h : s.crc = compute p) :
    exec .crcc s = .next (s.setCrc (compute (p ++ s.span))).finish := by
  rw [exec_crcc, h, compute_append]

/-! ### Loading a span (30_encoding.md R67) -/

/-- BUF with `bs` written from index `a` on. -/
def State.setBufFrom (s : State) (a : Nat) : List Byte → State
  | [] => s
  | b :: bs => (s.setBuf a b).setBufFrom (a + 1) bs

/-- The writes of a list to BUF change BUF only. -/
theorem State.setBufFrom_eq (s : State) (a : Nat) (bs : List Byte) :
    s.setBufFrom a bs = { s with buf := (s.setBufFrom a bs).buf } := by
  induction bs generalizing s a with
  | nil => rfl
  | cons b bs ih => exact ih (s.setBuf a b) (a + 1)

/-- Inside the list a byte reads as written, and outside it as before. -/
theorem State.setBufFrom_bufByte (s : State) (a : Nat) (bs : List Byte) (j : Nat) :
    (s.setBufFrom a bs).bufByte j = if j < a then s.bufByte j else bs[j - a]?.getD (s.bufByte j) := by
  induction bs generalizing s a with
  | nil => simp [State.setBufFrom]
  | cons b bs ih =>
    rw [State.setBufFrom, ih]
    rcases lt_trichotomy j a with hlt | rfl | hgt
    · rw [if_pos (by omega), if_pos hlt, State.setBuf_bufByte_other _ _ _ (by omega)]
    · simp
    · have hsub : j - a = j - (a + 1) + 1 := by omega
      rw [if_neg (by omega), if_neg (by omega), State.setBuf_bufByte_other _ _ _ (by omega), hsub,
        List.getElem?_cons_succ]

/-- What `load` makes of the state: the bytes in BUF from index 0 on, and LEN their number (R67). -/
def State.load (s : State) (bs : List Byte) : State := (s.setBufFrom 0 bs).setLen (BitVec.ofNat 8 bs.length)

theorem State.load_eq (s : State) (bs : List Byte) :
    s.load bs = { s with buf := (s.load bs).buf, len := BitVec.ofNat 8 bs.length } := by
  rw [State.load, State.setBufFrom_eq]
  rfl

theorem State.load_span (s : State) {bs : List Byte} (h : bs.length ≤ 32) : (s.load bs).span = bs := by
  have hlen : (s.load bs).len.toNat = bs.length := Nat.mod_eq_of_lt (by omega)
  rw [State.span, hlen]
  refine List.ext_getElem (State.bufTo_length _ _) fun j _ hj => ?_
  simp [State.bufTo, State.load, State.setBufFrom_bufByte, hj]

/-! ### Runs of the pseudo-instructions -/

/-- `runEvents_cons` for an event whose effect does not depend on what is pending: a run presents its own events. -/
theorem runEvents_cons_of_setPending {e : HostEvent} {es : List HostEvent} {s t : State}
    (h : applyEvent e (s.setPending es) = .next (t.setPending es)) : runEvents (e :: es) s = runEvents es t :=
  (runEvents_cons h).trans rfl

theorem runEvents_writeBuf {a : PortAddr} (h : a.toNat ≤ 0x1F) (v : Byte) (es : List HostEvent) (s : State) :
    runEvents (.write a v :: es) s = runEvents es (s.setBuf a.toNat v) :=
  runEvents_cons_of_setPending (hostWrite_buf (s.setPending es) v h)

theorem runEvents_loadWrites {a : Nat} {bs : List Byte} (h : a + bs.length ≤ 32) (es : List HostEvent) (s : State) :
    runEvents (loadWrites a bs ++ es) s = runEvents es (s.setBufFrom a bs) := by
  induction bs generalizing s a with
  | nil => rfl
  | cons b bs ih =>
    rw [List.length_cons] at h
    have ha : (BitVec.ofNat 6 a).toNat = a := Nat.mod_eq_of_lt (by omega)
    rw [loadWrites, List.cons_append, runEvents_writeBuf (by omega), ha, ih (by omega)]
    rfl

theorem lenClamp_of_le {v : Byte} (h : v.toNat ≤ 32) : lenClamp v = v := if_pos h

theorem runEvents_writeLen {v : Byte} (h : v.toNat ≤ 32) (es : List HostEvent) (s : State) :
    runEvents (.write 0x20 v :: es) s = runEvents es (s.setLen v) :=
  runEvents_cons_of_setPending <| by
    rw [applyEvent, hostWrite_len, lenClamp_of_le h]
    rfl

theorem runEvents_load {bs : List Byte} (h : bs.length ≤ 32) (es : List HostEvent) (s : State) :
    runEvents ((Pseudo.load bs).expand ++ es) s = runEvents es (s.load bs) := by
  have hlen : (BitVec.ofNat 8 bs.length).toNat = bs.length := Nat.mod_eq_of_lt (by omega)
  rw [Pseudo.expand, List.append_assoc, runEvents_loadWrites (by omega), List.singleton_append,
    runEvents_writeLen (by omega), State.load]

theorem runEvents_crc (es : List HostEvent) (s : State) :
    runEvents (Pseudo.crc.expand ++ es) s = runEvents es ((s.setCmd 0x01).setCrc (compute s.span)).finish :=
  runEvents_cons_of_setPending rfl

theorem runEvents_crcc (es : List HostEvent) (s : State) :
    runEvents (Pseudo.crcc.expand ++ es) s = runEvents es ((s.setCmd 0x02).setCrc (crc8 s.crc s.span)).finish :=
  runEvents_cons_of_setPending rfl

/-! ### The checksum of a list, chunk by chunk (R83) -/

theorem expandAll_append (ps qs : List Pseudo) :
    Pseudo.expandAll (ps ++ qs) = Pseudo.expandAll ps ++ Pseudo.expandAll qs := List.flatMap_append

theorem expandAll_pair (p q : Pseudo) (es : List HostEvent) :
    Pseudo.expandAll [p, q] ++ es = p.expand ++ (q.expand ++ es) := by
  rw [Pseudo.expandAll, List.flatMap_cons, List.flatMap_singleton, List.append_assoc]

/-- The part of `chunkProgram` after its first chunk. -/
def laterChunks (cs : List (List Byte)) : List Pseudo := cs.flatMap fun d => [.load d, .crcc]

theorem chunkProgram_eq (c : List Byte) (cs : List (List Byte)) :
    chunkProgram c cs = [.load c, .crc] ++ laterChunks cs := rfl

theorem laterChunks_cons (d : List Byte) (cs : List (List Byte)) :
    laterChunks (d :: cs) = [.load d, .crcc] ++ laterChunks cs := rfl

/-- `t` is a state that a chunked computation from `s` passes through: it holds the checksum of `p`, the bytes so far, its
last command ended without error, and what the computation does not write is as in `s`. -/
structure ChecksummedTo (s : State) (p : List Byte) (t : State) : Prop where
  crc : t.crc = compute p
  status : t.status = { err := 0, done := true, errIdx := 0 }
  tx : t.tx = s.tx
  w : t.w = s.w
  reads : t.reads = s.reads

theorem runEvents_firstChunk {c : List Byte} (hc : c.length ≤ 32) (es : List HostEvent) (s : State) :
    ∃ t, runEvents (Pseudo.expandAll [.load c, .crc] ++ es) s = runEvents es t ∧ ChecksummedTo s c t := by
  refine ⟨(((s.load c).setCmd 0x01).setCrc (compute c)).finish, ?_, ?_⟩
  · rw [expandAll_pair, runEvents_load hc, runEvents_crc, State.load_span s hc]
  · rw [State.load_eq]
    exact ⟨rfl, rfl, rfl, rfl, rfl⟩

theorem runEvents_nextChunk {d : List Byte} (hd : d.length ≤ 32) (es : List HostEvent) {s t : State} {p : List Byte}
    (ht : ChecksummedTo s p t) :
    ∃ u, runEvents (Pseudo.expandAll [.load d, .crcc] ++ es) t = runEvents es u ∧ ChecksummedTo s (p ++ d) u := by
  have hcrc : (t.load d).crc = compute p := by rw [State.load_eq, ← ht.crc]
  refine ⟨(((t.load d).setCmd 0x02).setCrc (compute (p ++ d))).finish, ?_, ?_⟩
  · rw [expandAll_pair, runEvents_load hd, runEvents_crcc, State.load_span t hd, hcrc, compute_append]
  · rw [State.load_eq]
    exact ⟨rfl, rfl, ht.tx, ht.w, ht.reads⟩

theorem runEvents_laterChunks {cs : List (List Byte)} (hcs : ∀ d ∈ cs, d.length ≤ 32) {s t : State} {p : List Byte}
    (ht : ChecksummedTo s p t) :
    ∃ u, runEvents (Pseudo.expandAll (laterChunks cs)) t = .next u ∧
      ChecksummedTo s (p ++ cs.flatten) u := by
  induction cs generalizing t p with
  | nil => exact ⟨t.setPending [], rfl, by rw [List.flatten_nil, List.append_nil]; exact { ht with }⟩
  | cons d cs ih =>
    obtain ⟨hd, hcs⟩ := List.forall_mem_cons.1 hcs
    obtain ⟨u, hu, hup⟩ := runEvents_nextChunk hd (Pseudo.expandAll (laterChunks cs)) ht
    obtain ⟨z, hz, hzp⟩ := ih hcs hup
    refine ⟨z, ?_, by rwa [List.flatten_cons, ← List.append_assoc]⟩
    rw [laterChunks_cons, expandAll_append, hu, hz]

/-- The run of a chunked computation ends with CRC the checksum of all its bytes. -/
theorem runEvents_chunkProgram {c : List Byte} {cs : List (List Byte)} (hc : c.length ≤ 32)
    (hcs : ∀ d ∈ cs, d.length ≤ 32) (s : State) :
    ∃ t, runEvents (Pseudo.expandAll (chunkProgram c cs)) s = .next t ∧ ChecksummedTo s (c ++ cs.flatten) t := by
  obtain ⟨t, ht, htc⟩ := runEvents_firstChunk hc (Pseudo.expandAll (laterChunks cs)) s
  obtain ⟨u, hu, huc⟩ := runEvents_laterChunks hcs htc
  refine ⟨u, ?_, huc⟩
  rw [chunkProgram_eq, expandAll_append, ht, hu]

/-- Settles O20: one CRCC continues the checksum by the span, and a run of them that of a list in chunks (R83). -/
theorem crccContinuesTheChecksum : Obligations.CrccContinuesTheChecksum := by
  refine ⟨by decide, fun s => ⟨rfl, fun hlen => ?_, fun hcrc => ?_, fun p hp => exec_crcc_of_compute hp⟩,
    fun s u hlen h0 hulen hu0 => ?_, fun s c cs hc hcs => ?_⟩
  · rw [exec_crcc, State.span_of_len hlen]
    rfl
  · rw [exec_crcc, hcrc]
    rfl
  · have hspan : s.span = [0xBE] := by rw [State.span_of_len hlen, ← h0]; rfl
    have huspan : u.span = [0xEF] := by rw [State.span_of_len hulen, ← hu0]; rfl
    have hcrc : compute s.span = 0x0C := by rw [hspan, compute_BE]
    refine ⟨_, exec_crc s, hcrc, fun hu => ?_⟩
    have hup : u.crc = compute [0xBE] := by rw [hu, ← hspan]; rfl
    refine ⟨_, exec_crcc_of_compute hup, ?_⟩
    rw [State.finish_crc, State.setCrc_crc, huspan, List.singleton_append, compute_BE_EF]
  · obtain ⟨t, ht, hcrc, hstatus, htx, hw, hreads⟩ := runEvents_chunkProgram hc hcs s
    exact ⟨t, ht, hcrc, hstatus, htx, hw, hreads⟩

/-! ### VER -/

/-- A trailing byte that is the checksum of the payload: CRC is that checksum (R84). -/
theorem exec_ver_ok {s : State} {c : Byte} (h : 1 ≤ s.len.toNat) (hc : compute s.payload = c) (heq : c = s.trailer) :
    exec .ver s = .next (s.setCrc c).finish := by
  subst hc
  exact exec_of_case (.verOk s h heq)

/-- Another trailing byte: CRC is written all the same (R84). -/
theorem exec_ver_mismatch {s : State} {c : Byte} (h : 1 ≤ s.len.toNat) (hc : compute s.payload = c)
    (hne : c ≠ s.trailer) : exec .ver s = .next ((s.setCrc c).raise .checksumMismatch 0) := by
  subst hc
  exact exec_of_case (.verBad s h hne)

theorem State.payload_of_len {s : State} {v : Byte} (h : s.len = v) : s.payload = s.bufTo (v.toNat - 1) := by
  rw [State.payload, h]

theorem State.trailer_of_len {s : State} {v : Byte} (h : s.len = v) : s.trailer = s.bufByte (v.toNat - 1) := by
  rw [State.trailer, h]

/-- A single byte is the trailer of an empty payload. -/
theorem State.compute_payload_of_len_one {s : State} (h : s.len = 1) : compute s.payload = 0xFF := by
  rw [State.payload_of_len h]
  rfl

/-- On three bytes VER and WRD 1 make the same check: VER's payload and trailing byte are those of group 0. -/
theorem exec_ver_wrd_one_status {s : State} (hlen : s.len = 3) :
    ∃ t u, exec .ver s = .next t ∧ exec (.wrd 1) s = .next u ∧ t.status = u.status ∧ t.w = s.w ∧ u.crc = s.crc := by
  have h3 : s.len.toNat = 3 := by rw [hlen]; rfl
  have hcheck : compute s.payload = s.trailer ↔ s.groupValid 0 = true := by
    rw [State.groupValid_iff, State.payload_of_len hlen, State.trailer_of_len hlen]
    rfl
  by_cases hv : s.groupValid 0 = true
  · have hnone : s.firstBadGroup 1 = none := State.firstBadGroup_eq_none.2 fun h hh => by rwa [Nat.lt_one_iff.1 hh]
    exact ⟨_, _, exec_ver_ok (by omega) rfl (hcheck.2 hv),
      exec_of_case (.wrdOk s 1 (by decide) (by decide) h3.ge hnone), rfl, rfl, rfl⟩
  · have hsome : s.firstBadGroup 1 = some 0 :=
      State.firstBadGroup_eq_some.2 ⟨Nat.one_pos, by simpa using hv, fun h hh => absurd hh (Nat.not_lt_zero h)⟩
    exact ⟨_, _, exec_ver_mismatch (by omega) rfl (mt hcheck.1 hv),
      exec_of_case (.wrdBad s 1 0 (by decide) (by decide) h3.ge hsome), rfl, rfl, rfl⟩

/-- Settles O21: VER's three outcomes, with the payload and the trailing byte at each length the rule names (R84). -/
theorem verChecksTheTrailingByte : Obligations.VerChecksTheTrailingByte := by
  refine ⟨by decide, fun s => ⟨fun hlen => ?_, fun c hlen hc => ⟨fun heq => ?_, fun hne => ?_⟩, fun hlen h0 => ?_,
    fun hlen h0 => ?_, exec_ver_wrd_one_status⟩, fun s hlen h0 h1 => ?_⟩
  · exact exec_of_case (.verShort s (by rw [hlen]; decide))
  · exact exec_ver_ok hlen hc.symm heq
  · exact exec_ver_mismatch hlen hc.symm hne
  · exact exec_ver_ok (by rw [hlen]; decide) (State.compute_payload_of_len_one hlen)
      (by rw [State.trailer_of_len hlen]; exact h0.symm)
  · exact exec_ver_mismatch (by rw [hlen]; decide) (State.compute_payload_of_len_one hlen)
      (by rw [State.trailer_of_len hlen]; exact h0.symm)
  · have hpos : 1 ≤ s.len.toNat := by rw [hlen]; decide
    have hpayload : s.payload = [0xBE, 0xEF] := by rw [State.payload_of_len hlen, ← h0, ← h1]; rfl
    have hc : compute s.payload = 0x92 := by rw [hpayload, compute_BE_EF]
    have htrailer : s.trailer = s.bufByte 2 := State.trailer_of_len hlen
    refine ⟨fun h2 => exec_ver_ok hpos hc ?_, fun h2 => exec_ver_mismatch hpos hc ?_⟩
    · rw [htrailer, h2]
    · rw [htrailer, h2]
      decide

end Sys2Proof.Machine
end

section
/-! PROOFS. Command frames and word frames (41_word_frames.md R100 to R104): be16 as a number, what ENC and WRD answer, and
that the checksum of a group sees every change of one of its bytes. -/

namespace Sys2Proof.Machine

/-! ### Big-endian assembly -/

theorem be16_toNat (hi lo : Byte) : (be16 hi lo).toNat = hi.toNat * 256 + lo.toNat := by
  rw [be16, BitVec.toNat_append, ← Nat.shiftLeft_add_eq_or_of_lt lo.isLt, Nat.shiftLeft_eq]

/-- Settles O22: be16 is concatenation, so R44's selections take its two bytes apart again (R101). -/
theorem bigEndianAssembly : Obligations.BigEndianAssembly :=
  fun hi lo => ⟨be16_toNat hi lo, hiByte_be16 hi lo, loByte_be16 hi lo⟩

/-! ### ENC -/

/-- Every command but ENC leaves TX as it is (R100). -/
theorem exec_tx_of_ne_enc {i : Instr} {s t : State} (hi : i ≠ .enc) (h : exec i s = .next t) : t.tx = s.tx := by
  cases exec_cases h with
  | encShort => exact absurd rfl hi
  | encOk => exact absurd rfl hi
  | _ => rfl

/-- Settles O23: ENC's two outcomes; the example is the frame of the opcode Stop (R100). -/
theorem encBuildsTheFrame : Obligations.EncBuildsTheFrame := by
  refine ⟨by decide, fun s => ⟨fun hlen => ?_, fun hlen => ?_, fun hlen h0 h1 => ?_, fun i t => exec_tx_of_ne_enc⟩⟩
  · exact exec_of_case (.encShort s hlen)
  · exact exec_of_case (.encOk s hlen)
  · have hstop : be16 (s.bufByte 0) (s.bufByte 1) = Config.sensorStop := by rw [h0, h1]; decide
    rw [exec_enc_eq_wordFrame (by rw [hlen]; decide), hstop, wordFrame_sensorStop]
    rfl

/-! ### WRD -/

section
variable {s : State} {n : Nibble}

theorem State.groupValid_eq_false_iff (g : Nat) :
    s.groupValid g = false ↔ compute [s.bufByte (3 * g), s.bufByte (3 * g + 1)] ≠ s.bufByte (3 * g + 2) := by
  rw [ne_eq, ← State.groupValid_iff, Bool.not_eq_true]

/-- The lowest failing group is reported, and nothing else is written (R102). -/
theorem exec_wrd_mismatch {g : Nat} (h0 : 1 ≤ n.toNat) (h10 : n.toNat ≤ 10) (hlen : 3 * n.toNat ≤ s.len.toNat)
    (hg : g < n.toNat) (hbad : s.groupValid g = false) (hbelow : ∀ h < g, s.groupValid h = true) :
    exec (.wrd n) s = .next (s.raise .checksumMismatch g) :=
  exec_of_case (.wrdBad s n g h0 h10 hlen (State.firstBadGroup_eq_some.2 ⟨hg, hbad, hbelow⟩))

/-- With every group valid, the words are written (R102). -/
theorem exec_wrd_ok (h0 : 1 ≤ n.toNat) (h10 : n.toNat ≤ 10) (hlen : 3 * n.toNat ≤ s.len.toNat)
    (hvalid : ∀ h < n.toNat, s.groupValid h = true) :
    exec (.wrd n) s = .next (s.setWords n.toNat s.groupWord).finish :=
  exec_of_case (.wrdOk s n h0 h10 hlen (State.firstBadGroup_eq_none.2 hvalid))

end

theorem decode_wrd {n : Nibble} (h0 : 1 ≤ n.toNat) (h10 : n.toNat ≤ 10) :
    decode (BitVec.ofNat 8 (16 * n.toNat + 5)) = .command (.wrd n) := by
  revert n
  decide

theorem compute_zero_zero : compute [0x00, 0x00] = 0x81 := by decide +kernel

/-- The three groups of R102's example are valid and carry 500, 0x8000 and 0x4000. -/
theorem State.groups_of_example {s : State}
    (h : (List.range 9).map s.bufByte = [0x01, 0xF4, 0x33, 0x80, 0x00, 0xA2, 0x40, 0x00, 0x08]) :
    (∀ g < 3, s.groupValid g = true) ∧ s.groupWord 0 = 500 ∧ s.groupWord 1 = 0x8000 ∧ s.groupWord 2 = 0x4000 := by
  obtain ⟨h0, h1, h2, h3, h4, h5, h6, h7, h8⟩ :
      s.bufByte 0 = 0x01 ∧ s.bufByte 1 = 0xF4 ∧ s.bufByte 2 = 0x33 ∧ s.bufByte 3 = 0x80 ∧ s.bufByte 4 = 0x00 ∧
        s.bufByte 5 = 0xA2 ∧ s.bufByte 6 = 0x40 ∧ s.bufByte 7 = 0x00 ∧ s.bufByte 8 = 0x08 := by
    simpa [List.range_succ] using h
  refine ⟨fun g hg => ?_, ?_, ?_, ?_⟩
  · rw [State.groupValid_iff]
    interval_cases g
    · rw [h0, h1, h2]; decide +kernel
    · rw [h3, h4, h5]; decide +kernel
    · rw [h6, h7, h8]; decide +kernel
  · exact (congrArg₂ be16 h0 h1).trans (by decide)
  · exact (congrArg₂ be16 h3 h4).trans (by decide)
  · exact (congrArg₂ be16 h6 h7).trans (by decide)

/-- Settles O25: WRD's three outcomes by the lowest failing group, and the example (R102). -/
theorem wrdDecodesTheGroups : Obligations.WrdDecodesTheGroups := by
  refine ⟨fun s n h0 h10 => ⟨decode_wrd h0 h10, fun hlen => ?_, fun g hlen hg hbad hbelow => ?_,
    fun hlen hvalid => ?_⟩, compute_zero_zero, fun s hlen hbuf => ?_⟩
  · exact exec_of_case (.wrdShort s n h0 h10 hlen)
  · exact exec_wrd_mismatch h0 h10 hlen hg ((State.groupValid_eq_false_iff g).2 hbad)
      fun h hh => (s.groupValid_iff h).2 (hbelow h hh)
  · exact ⟨_, exec_wrd_ok h0 h10 hlen fun h hh => (s.groupValid_iff h).2 (hvalid h hh),
      s.setWords_get n.toNat s.groupWord, rfl⟩
  · obtain ⟨hvalid, hw0, hw1, hw2⟩ := State.groups_of_example hbuf
    have hw := s.setWords_get 3 s.groupWord
    exact ⟨_, exec_wrd_ok (by decide) (by decide) (by rw [hlen]; decide) hvalid,
      (hw 0).trans hw0, (hw 1).trans hw1, (hw 2).trans hw2, rfl⟩

/-! ### ENC, then WRD -/

/-- WRD 1 on the frame of a word gives the word. -/
theorem exec_wrd_one_of_wordFrame {u : State} {v : Word16} (hlen : u.len = 3) (h0 : u.bufByte 0 = (wordFrame v)[0])
    (h1 : u.bufByte 1 = (wordFrame v)[1]) (h2 : u.bufByte 2 = (wordFrame v)[2]) :
    ∃ z, exec (.wrd 1) u = .next z ∧ z.status = { err := 0, done := true, errIdx := 0 } ∧ z.w[0] = v := by
  have hvalid : ∀ h < 1, u.groupValid h = true := fun h hh => by
    rw [Nat.lt_one_iff.1 hh, State.groupValid_iff, h0, h1, h2]
    rfl
  have hword : u.groupWord 0 = v := (congrArg₂ be16 h0 h1).trans (be16_hiByte_loByte v)
  exact ⟨_, exec_wrd_ok (by decide) (by decide) (by rw [hlen]; decide) hvalid, rfl,
    (u.setWords_get 1 u.groupWord 0).trans hword⟩

/-- Settles O26: ENC leaves the frame of the word in TX, and WRD 1 decodes that frame (R103). -/
theorem encThenWrdRoundTrip : Obligations.EncThenWrdRoundTrip := by
  intro v s hlen h0 h1
  have hv : be16 (s.bufByte 0) (s.bufByte 1) = v := by rw [h0, h1, be16_hiByte_loByte]
  refine ⟨(s.setTx (wordFrame v)).finish, ?_, fun u => exec_wrd_one_of_wordFrame⟩
  rw [exec_enc_eq_wordFrame hlen, hv]

/-! ### One changed byte changes the checksum -/

/-- The inverse of `crcShift`: the polynomial is odd, so the low bit tells whether it was added. -/
def crcUnshift (c : Byte) : Byte :=
  if c.getLsbD 0 then ((c ^^^ Config.crcPoly) >>> 1) ||| 0x80 else c >>> 1

theorem crcUnshift_crcShift : Function.LeftInverse crcUnshift crcShift := by
  unfold Function.LeftInverse
  decide +kernel

theorem crcShifts_injective (k : Nat) : Function.Injective (crcShifts k) := by
  rw [funext (crcShifts_eq_iterate k)]
  exact crcUnshift_crcShift.injective.iterate k

theorem crc8Step_inj {c b c' b' : Byte} : crc8Step c b = crc8Step c' b' ↔ c ^^^ b = c' ^^^ b' :=
  (crcShifts_injective 8).eq_iff

/-- The checksum of a list depends on the initial register one to one. -/
theorem crc8_injective (bs : List Byte) : Function.Injective fun i => crc8 i bs := by
  induction bs with
  | nil => exact Function.injective_id
  | cons b bs ih => exact fun i i' h => (BitVec.xor_left_inj b).1 (crc8Step_inj.1 (ih h))

/-- Changing one byte of a list changes its checksum. -/
theorem crc8_append_cons_inj {i x y : Byte} {a bs : List Byte} :
    crc8 i (a ++ x :: bs) = crc8 i (a ++ y :: bs) ↔ x = y := by
  rw [crc8_append, crc8_append, crc8_cons, crc8_cons, (crc8_injective bs).eq_iff, crc8Step_inj, BitVec.xor_right_inj]

theorem xor_oneBit_ne_self (x : Byte) {k : Nat} (hk : k < 8) : x ^^^ 1#8 <<< k ≠ x := by
  have hbit : ∀ k < 8, 1#8 <<< k ≠ 0#8 := by decide
  simpa using hbit k hk

/-- A group that was valid is not valid any more when one of its three bytes has changed. -/
theorem State.groupValid_eq_false_of_byte_changed {s u : State} {g j : Nat} (hj : j < 3)
    (hvalid : s.groupValid g = true) (hne : u.bufByte (3 * g + j) ≠ s.bufByte (3 * g + j))
    (hsame : ∀ x ≠ 3 * g + j, u.bufByte x = s.bufByte x) : u.groupValid g = false := by
  rw [State.groupValid_iff] at hvalid
  rw [State.groupValid_eq_false_iff]
  interval_cases j
  · rw [hsame (3 * g + 1) (by omega), hsame (3 * g + 2) (by omega), ← hvalid]
    exact mt (crc8_append_cons_inj (a := [])).1 hne
  · rw [hsame (3 * g) (by omega), hsame (3 * g + 2) (by omega), ← hvalid]
    exact mt (crc8_append_cons_inj (a := [s.bufByte (3 * g)])).1 hne
  · rw [hsame (3 * g) (by omega), hsame (3 * g + 1) (by omega), hvalid]
    exact hne.symm

/-- A group that does not hold the changed byte stays valid. -/
theorem State.groupValid_congr {s u : State} {h : Nat}
    (hsame : ∀ i < 3, u.bufByte (3 * h + i) = s.bufByte (3 * h + i)) : u.groupValid h = s.groupValid h := by
  rw [Bool.eq_iff_iff, State.groupValid_iff, State.groupValid_iff, ← hsame 1 (by decide), ← hsame 2 (by decide),
    show u.bufByte (3 * h) = s.bufByte (3 * h) from hsame 0 (by decide)]

/-- Settles O27: group `g` is the lowest failing group, since its changed byte shows and the groups below it are as before
(R104). -/
theorem oneFlippedBitIsDetected : Obligations.OneFlippedBitIsDetected := by
  intro s u n g j k h0 h10 hlen hvalid hg hj hk hulen hflip
  have hvalid : ∀ h < n.toNat, s.groupValid h = true := fun h hh => (s.groupValid_iff h).2 (hvalid h hh)
  have hsame : ∀ x ≠ 3 * g + j, u.bufByte x = s.bufByte x := fun x hx => by rw [hflip, if_neg hx]
  have hne : u.bufByte (3 * g + j) ≠ s.bufByte (3 * g + j) := by
    rw [hflip, if_pos rfl]
    exact xor_oneBit_ne_self _ hk
  refine exec_wrd_mismatch h0 h10 (hulen ▸ hlen) hg
    (State.groupValid_eq_false_of_byte_changed hj (hvalid g hg) hne hsame) fun h hh => ?_
  rw [State.groupValid_congr fun i hi => hsame _ (by omega)]
  exact hvalid h (by omega)

end Sys2Proof.Machine
end

section
/-! PROOFS. The particulate frame decoder (42_particulate.md R120 to R122): PMD's three outcomes, the fields of R120's
example, and the bytes that PMD depends on. -/

namespace Sys2Proof.Machine

/-! ### PMD's outcomes -/

section
variable {s : State}

theorem State.magicValid_eq_false_iff : s.magicValid = false ↔ s.bufByte 0 ≠ 0x42 ∨ s.bufByte 1 ≠ 0x4D := by
  rw [← Bool.not_eq_true, State.magicValid_iff, not_and_or]

/-- Without the magic, BAD_FRAME_HEADER is the only effect (R120, R143). -/
theorem exec_pmd_badHeader (hlen : 32 ≤ s.len.toNat) (hbad : s.bufByte 0 ≠ 0x42 ∨ s.bufByte 1 ≠ 0x4D) :
    exec .pmd s = .next (s.raise .badFrameHeader 0) :=
  exec_of_case (.pmdBad s hlen (State.magicValid_eq_false_iff.2 hbad))

/-- With the magic, the nine fields are written (R120). -/
theorem exec_pmd_ok (hlen : 32 ≤ s.len.toNat) (h0 : s.bufByte 0 = 0x42) (h1 : s.bufByte 1 = 0x4D) :
    exec .pmd s = .next (s.setWords 9 s.pmField).finish :=
  exec_of_case (.pmdOk s hlen (s.magicValid_iff.2 ⟨h0, h1⟩))

end

/-- Settles O30: the header check of a whole frame (R122, R143). -/
theorem badHeaderIsRejected : Obligations.BadHeaderIsRejected :=
  fun s hlen hbad => exec_pmd_badHeader (by rw [hlen]; decide) hbad

/-- In R120's example only field 1 is not zero: its low byte is the one byte of the fields that is not zero. -/
theorem State.pmField_of_example {s : State} (h0D : s.bufByte 0x0D = 0x0A)
    (hzero : ∀ j < 32, j ≠ 0 → j ≠ 1 → j ≠ 0x0D → s.bufByte j = 0x00) {k : Nat} (hk : k < 9) :
    s.pmField k = if k = 1 then 10 else 0 := by
  have hhi : s.bufByte (0x0A + 2 * k) = 0x00 := hzero _ (by omega) (by omega) (by omega) (by omega)
  split_ifs with h1
  · subst h1
    exact (congrArg₂ be16 hhi h0D).trans (by decide)
  · have hlo : s.bufByte (0x0B + 2 * k) = 0x00 := hzero _ (by omega) (by omega) (by omega) (by omega)
    exact (congrArg₂ be16 hhi hlo).trans (by decide)

/-- Settles O28: PMD's three outcomes, and the example (R120). -/
theorem pmdExtractsTheFields : Obligations.PmdExtractsTheFields := by
  refine ⟨by decide, fun s => ⟨fun hlen => ?_, fun hlen hbad => ?_, fun hlen h0 h1 => ?_⟩,
    fun s hlen h0 h1 h0D hzero => ?_⟩
  · exact exec_of_case (.pmdShort s hlen)
  · exact exec_pmd_badHeader hlen hbad
  · exact ⟨_, exec_pmd_ok hlen h0 h1, s.setWords_get 9 s.pmField, rfl⟩
  · refine ⟨_, exec_pmd_ok (by rw [hlen]; decide) h0 h1, fun k => ?_, rfl⟩
    calc (s.setWords 9 s.pmField).w[k.val]
      _ = s.pmField k := (s.setWords_get 9 s.pmField (k.castLE (by decide))).trans (if_pos k.isLt)
      _ = if k.val = 1 then 10 else 0 := State.pmField_of_example h0D hzero k.isLt

/-! ### The bytes PMD depends on -/

section
variable {s u : State}

/-- The words after a write depend on the words before it and on the values written only. -/
theorem State.setWords_w_congr {n : Nat} {f g : Nat → Word16} (hw : u.w = s.w) (hfg : ∀ k < n, g k = f k) :
    (u.setWords n g).w = (s.setWords n f).w := by
  refine Vector.ext fun k hk => ?_
  refine (u.setWords_get n g ⟨k, hk⟩).trans (Eq.trans ?_ (s.setWords_get n f ⟨k, hk⟩).symm)
  rw [hw]
  split_ifs with hkn
  · exact hfg k hkn
  · rfl

theorem State.magicValid_congr (h0 : u.bufByte 0 = s.bufByte 0) (h1 : u.bufByte 1 = s.bufByte 1) :
    u.magicValid = s.magicValid := by
  rw [State.magicValid, State.magicValid, h0, h1]

/-- The nine fields are the bytes 0x0A to 0x1B. -/
theorem State.pmField_congr (hfields : ∀ j, 0x0A ≤ j → j < 0x1C → u.bufByte j = s.bufByte j) {k : Nat} (hk : k < 9) :
    u.pmField k = s.pmField k :=
  congrArg₂ be16 (hfields (0x0A + 2 * k) (by omega) (by omega)) (hfields (0x0B + 2 * k) (by omega) (by omega))

end

/-- Settles O29: each of PMD's outcomes is taken by both states or by neither, and writes the same (R121). -/
theorem pmdIgnoresTheOtherBytes : Obligations.PmdIgnoresTheOtherBytes := by
  intro s u hlen hw h0 h1 hfields
  have hmagic : u.magicValid = s.magicValid := State.magicValid_congr h0 h1
  obtain ⟨t, ht⟩ := exec_total .pmd s
  refine ⟨t, ?_⟩
  cases exec_cases ht with
  | pmdShort _ hshort => exact ⟨_, ht, exec_of_case (.pmdShort u (hlen ▸ hshort)), hw, rfl⟩
  | pmdBad _ hlong hbad => exact ⟨_, ht, exec_of_case (.pmdBad u (hlen ▸ hlong) (hmagic.trans hbad)), hw, rfl⟩
  | pmdOk _ hlong hok =>
    exact ⟨_, ht, exec_of_case (.pmdOk u (hlen ▸ hlong) (hmagic.trans hok)),
      State.setWords_w_congr hw fun _ => State.pmField_congr hfields, rfl⟩

end Sys2Proof.Machine
end

section
/-! PROOFS. Errors (60_exceptions.md R140 to R145): the one outcome of a command in priority order, what a
command's code says about it, and the outcome of a CMD write. -/

namespace Sys2Proof

/-! ### Commands that come from a byte -/

theorem wrdCountLegal_iff (n : Nibble) : wrdCountLegal n = true ↔ 1 ≤ n.toNat ∧ n.toNat ≤ 10 := by
  rw [wrdCountLegal, Bool.and_eq_true, decide_eq_true_eq, decide_eq_true_eq]
  rfl

theorem eq_of_requireNoArg_eq_command {arg : Nibble} {i j : Instr} (h : requireNoArg arg i = .command j) : j = i := by
  unfold requireNoArg at h
  split_ifs at h
  exact (Decoded.command.inj h).symm

/-- The decoder gives well-formed commands only (R63). -/
theorem wf_of_decode_eq_command {b : Byte} {i : Instr} (h : decode b = .command i) : i.wf = true := by
  unfold decode at h
  split at h
  case h_5 =>
    split_ifs at h with hn
    cases h
    exact hn
  case h_7 => cases h
  all_goals
    cases eq_of_requireNoArg_eq_command h
    rfl

end Sys2Proof

namespace Sys2Proof.Machine

/-! ### The content check -/

section
variable {i : Instr} {s : State} {e : BitVec 3} {g : Nat}

/-- WRD's content check fails at its lowest failing group. -/
theorem contentFails_wrd_iff {n : Nibble} :
    ContentFails (.wrd n) s e g ↔ e = 1 ∧ s.firstBadGroup n.toNat = some g := by
  simp only [ContentFails, State.firstBadGroup_eq_some, State.groupValid, beq_eq_false_iff_ne, beq_iff_eq, ne_eq]

/-- PMD's content check fails without the magic. -/
theorem contentFails_pmd_iff : ContentFails .pmd s e g ↔ e = 2 ∧ g = 0 ∧ s.magicValid = false := by
  rw [ContentFails, State.magicValid_eq_false_iff]

/-- A content check fails in one way at most. -/
theorem ContentFails.unique {e' : BitVec 3} {g' : Nat} (h : ContentFails i s e g) (h' : ContentFails i s e' g') :
    e' = e ∧ g' = g := by
  cases i with
  | crc => exact h.elim
  | crcc => exact h.elim
  | enc => exact h.elim
  | ver =>
    obtain ⟨rfl, rfl, -⟩ := h
    obtain ⟨rfl, rfl, -⟩ := h'
    exact ⟨rfl, rfl⟩
  | wrd n =>
    obtain ⟨rfl, hg⟩ := contentFails_wrd_iff.1 h
    obtain ⟨rfl, hg'⟩ := contentFails_wrd_iff.1 h'
    exact ⟨rfl, Option.some.inj (hg'.symm.trans hg)⟩
  | pmd =>
    obtain ⟨rfl, rfl, -⟩ := h
    obtain ⟨rfl, rfl, -⟩ := h'
    exact ⟨rfl, rfl⟩

/-- Which code a content check has, by the command. -/
theorem ContentFails.code_eq (h : ContentFails i s e g) :
    (e = 1 ∧ (i = .ver ∨ ∃ n, i = .wrd n)) ∨ (e = 2 ∧ i = .pmd) := by
  cases i with
  | crc => exact h.elim
  | crcc => exact h.elim
  | enc => exact h.elim
  | ver => exact .inl ⟨h.1, .inl rfl⟩
  | wrd n => exact .inl ⟨h.1, .inr ⟨n, rfl⟩⟩
  | pmd => exact .inr ⟨h.1, rfl⟩

end

/-- CRC and CRCC need no bytes (R142). -/
theorem bytesNeeded_pos_cases {i : Instr} (h : 0 < bytesNeeded i) :
    i = .ver ∨ i = .enc ∨ (∃ n, i = .wrd n) ∨ i = .pmd := by
  cases i with
  | crc => exact absurd h (Nat.lt_irrefl 0)
  | crcc => exact absurd h (Nat.lt_irrefl 0)
  | _ => simp

/-! ### The outcome of a command -/

/-- What a command in state `s` reports in STATUS, in R145's order: its count is illegal, or its span is too short, or its
content check fails, or OK. -/
inductive CommandOutcome (i : Instr) (s : State) : Status → Prop where
  | illegal (hwf : i.wf = false) : CommandOutcome i s { err := 4, done := true, errIdx := 0 }
  | short (hwf : i.wf = true) (hlen : s.len.toNat < bytesNeeded i) :
      CommandOutcome i s { err := 3, done := true, errIdx := 0 }
  | content (e : BitVec 3) (g : Nat) (hwf : i.wf = true) (hlen : bytesNeeded i ≤ s.len.toNat)
      (hfail : ContentFails i s e g) : CommandOutcome i s { err := e, done := true, errIdx := BitVec.ofNat 4 g }
  | ok (hwf : i.wf = true) (hlen : bytesNeeded i ≤ s.len.toNat) (hpass : ∀ e g, ¬ ContentFails i s e g) :
      CommandOutcome i s { err := 0, done := true, errIdx := 0 }

/-- Every command reports its outcome. -/
theorem exec_outcome {i : Instr} {s t : State} (h : exec i s = .next t) : CommandOutcome i s t.status := by
  cases exec_cases h with
  | crc => exact .ok rfl (Nat.zero_le _) fun _ _ => id
  | crcc => exact .ok rfl (Nat.zero_le _) fun _ _ => id
  | verShort _ hlen => exact .short rfl hlen
  | verBad _ hlen hc => exact .content 1 0 rfl hlen ⟨rfl, rfl, hc⟩
  | verOk _ hlen hc => exact .ok rfl hlen fun _ _ ⟨_, _, hne⟩ => hne hc
  | encShort _ hlen => exact .short rfl hlen
  | encOk _ hlen => exact .ok rfl hlen fun _ _ => id
  | wrdCount _ n hn =>
    refine .illegal (Bool.eq_false_iff.2 fun hwf => ?_)
    have := (wrdCountLegal_iff n).1 hwf
    omega
  | wrdShort _ n h0 h10 hlen => exact .short ((wrdCountLegal_iff n).2 ⟨h0, h10⟩) hlen
  | wrdBad _ n g h0 h10 hlen hg =>
    exact .content 1 g ((wrdCountLegal_iff n).2 ⟨h0, h10⟩) hlen (contentFails_wrd_iff.2 ⟨rfl, hg⟩)
  | wrdOk _ n h0 h10 hlen hg =>
    refine .ok ((wrdCountLegal_iff n).2 ⟨h0, h10⟩) hlen fun e g hfail => ?_
    obtain ⟨-, hsome⟩ := contentFails_wrd_iff.1 hfail
    exact Option.some_ne_none g (hsome.symm.trans hg)
  | pmdShort _ hlen => exact .short rfl hlen
  | pmdBad _ hlen hm => exact .content 2 0 rfl hlen (contentFails_pmd_iff.2 ⟨rfl, rfl, hm⟩)
  | pmdOk _ hlen hm =>
    refine .ok rfl hlen fun e g hfail => ?_
    obtain ⟨-, -, hbad⟩ := contentFails_pmd_iff.1 hfail
    exact Bool.false_ne_true (hbad.symm.trans hm)

namespace CommandOutcome

variable {i : Instr} {s : State} {st : Status}

theorem done_eq (h : CommandOutcome i s st) : st.done = true := by cases h <;> rfl

/-- The codes 5 to 7 never occur. -/
theorem err_cases (h : CommandOutcome i s st) :
    st.err = 0 ∨ st.err = 1 ∨ st.err = 2 ∨ st.err = 3 ∨ st.err = 4 := by
  cases h with
  | content e g _ _ hfail => rcases hfail.code_eq with ⟨rfl, -⟩ | ⟨rfl, -⟩ <;> simp
  | _ => simp

theorem err_eq_zero_iff (h : CommandOutcome i s st) (hwf : i.wf = true) :
    st.err = 0 ↔ bytesNeeded i ≤ s.len.toNat ∧ ∀ e g, ¬ ContentFails i s e g := by
  cases h with
  | illegal hill => exact absurd hwf (Bool.eq_false_iff.1 hill)
  | short _ hlen => exact iff_of_false (by simp) fun ⟨hle, _⟩ => Nat.not_lt.2 hle hlen
  | content e g _ _ hfail =>
    refine iff_of_false ?_ fun ⟨_, hpass⟩ => hpass e g hfail
    rcases hfail.code_eq with ⟨rfl, -⟩ | ⟨rfl, -⟩ <;> simp
  | ok _ hlen hpass => exact iff_of_true rfl ⟨hlen, hpass⟩

/-- The codes 1 and 2 come from a content check. -/
theorem contentFails_of_err (h : CommandOutcome i s st) (he : st.err = 1 ∨ st.err = 2) :
    ∃ g, ContentFails i s st.err g := by
  cases h with
  | content e g _ _ hfail => exact ⟨g, hfail⟩
  | _ => simp at he

theorem of_err_eq_one (h : CommandOutcome i s st) (he : st.err = 1) : i = .ver ∨ ∃ n, i = .wrd n := by
  obtain ⟨g, hfail⟩ := h.contentFails_of_err (.inl he)
  rw [he] at hfail
  simpa using hfail.code_eq

theorem of_err_eq_two (h : CommandOutcome i s st) (he : st.err = 2) : i = .pmd := by
  obtain ⟨g, hfail⟩ := h.contentFails_of_err (.inr he)
  rw [he] at hfail
  simpa using hfail.code_eq

theorem short_of_err_eq_three (h : CommandOutcome i s st) (he : st.err = 3) : s.len.toNat < bytesNeeded i := by
  cases h with
  | short _ hlen => exact hlen
  | content e g _ _ hfail => rcases hfail.code_eq with ⟨rfl, -⟩ | ⟨rfl, -⟩ <;> simp at he
  | _ => simp at he

theorem err_eq_four_iff (h : CommandOutcome i s st) : st.err = 4 ↔ i.wf = false := by
  cases h with
  | illegal hill => exact iff_of_true rfl hill
  | content e g hwf _ hfail => rcases hfail.code_eq with ⟨rfl, -⟩ | ⟨rfl, -⟩ <;> simp [hwf]
  | _ hwf => simp [hwf]

/-- Too short a span decides the outcome of a well-formed command. -/
theorem eq_short (h : CommandOutcome i s st) (hwf : i.wf = true) (hlen : s.len.toNat < bytesNeeded i) :
    st = { err := 3, done := true, errIdx := 0 } := by
  cases h with
  | illegal hill => exact absurd hwf (Bool.eq_false_iff.1 hill)
  | short => rfl
  | content _ _ _ hle => exact absurd hlen (Nat.not_lt.2 hle)
  | ok _ hle => exact absurd hlen (Nat.not_lt.2 hle)

/-- With enough bytes, a failing content check decides the outcome. -/
theorem eq_content {e : BitVec 3} {g : Nat} (h : CommandOutcome i s st) (hwf : i.wf = true)
    (hlen : bytesNeeded i ≤ s.len.toNat) (hfail : ContentFails i s e g) :
    st = { err := e, done := true, errIdx := BitVec.ofNat 4 g } := by
  cases h with
  | illegal hill => exact absurd hwf (Bool.eq_false_iff.1 hill)
  | short _ hlt => exact absurd hlt (Nat.not_lt.2 hlen)
  | content e' g' _ _ hfail' =>
    obtain ⟨rfl, rfl⟩ := hfail.unique hfail'
    rfl
  | ok _ _ hpass => exact absurd hfail (hpass e g)

/-- With enough bytes and no failing check the outcome is OK. -/
theorem eq_ok (h : CommandOutcome i s st) (hwf : i.wf = true) (hlen : bytesNeeded i ≤ s.len.toNat)
    (hpass : ∀ e g, ¬ ContentFails i s e g) : st = { err := 0, done := true, errIdx := 0 } := by
  cases h with
  | illegal hill => exact absurd hwf (Bool.eq_false_iff.1 hill)
  | short _ hlt => exact absurd hlt (Nat.not_lt.2 hlen)
  | content e g _ _ hfail => exact absurd hfail (hpass e g)
  | ok => rfl

/-- The outcome depends neither on what CMD holds nor on what the host presents next. -/
theorem of_setPending_setCmd {rest : List HostEvent} {v : Byte}
    (h : CommandOutcome i ((s.setPending rest).setCmd v) st) : CommandOutcome i s st := by
  have hfails : ∀ e g, ContentFails i ((s.setPending rest).setCmd v) e g ↔ ContentFails i s e g := by
    cases i <;> exact fun _ _ => Iff.rfl
  cases h with
  | illegal hwf => exact .illegal hwf
  | short hwf hlen => exact .short hwf hlen
  | content e g hwf hlen hfail => exact .content e g hwf hlen ((hfails e g).1 hfail)
  | ok hwf hlen hpass => exact .ok hwf hlen fun e g hfail => hpass e g ((hfails e g).2 hfail)

end CommandOutcome

/-! ### The outcome of a CMD write -/

section
variable {s : State} {v : Byte} {rest : List HostEvent}

/-- The step that takes a CMD write of a command's byte reports that command's outcome. -/
theorem step_cmd_of_decode_command {i : Instr} (hp : s.pending = .write 0x21 v :: rest) (hd : decode v = .command i) :
    ∃ t, step s = .next t ∧ CommandOutcome i s t.status := by
  obtain ⟨t, ht⟩ := exec_total i ((s.setPending rest).setCmd v)
  refine ⟨t, ?_, (exec_outcome ht).of_setPending_setCmd⟩
  rw [step_write hp, hostWrite_cmd, runCommand_of_decode_command _ hd, ht]

/-- The step that takes a CMD write of an illegal byte reports ILLEGAL_COMMAND. -/
theorem step_cmd_of_decode_illegal {why : DecodeError} (hp : s.pending = .write 0x21 v :: rest)
    (hd : decode v = .illegal why) :
    ∃ t, step s = .next t ∧ t.status = { err := 4, done := true, errIdx := 0 } := by
  refine ⟨((s.setPending rest).setCmd v).raise .illegalCommand 0, ?_, rfl⟩
  rw [step_write hp, hostWrite_cmd, runCommand_of_decode_illegal _ hd]

end

/-! ### The statements -/

/-- Settles O31: each code by the outcome that carries it; a CMD write ends with 4 by the byte alone (R140). -/
theorem statusCodesOfCommands : Obligations.StatusCodesOfCommands := by
  refine ⟨fun i s t h => ?_, fun s v rest hp => ?_⟩
  · have hout := exec_outcome h
    exact ⟨hout.err_cases, hout.err_eq_zero_iff, hout.of_err_eq_one, hout.of_err_eq_two,
      fun he => bytesNeeded_pos_cases (Nat.zero_lt_of_lt (hout.short_of_err_eq_three he)), hout.err_eq_four_iff.1⟩
  · cases hd : decode v with
    | command i =>
      obtain ⟨t, ht, hout⟩ := step_cmd_of_decode_command hp hd
      refine ⟨t, ht, hout.err_eq_four_iff.trans (iff_of_false ?_ (by simp))⟩
      simp [wf_of_decode_eq_command hd]
    | illegal why =>
      obtain ⟨t, ht, hst⟩ := step_cmd_of_decode_illegal hp hd
      exact ⟨t, ht, by simp [hst]⟩

/-- Settles O32: VER's and WRD's mismatch; the commands that write W or TX end with code 0 when they do (R141). -/
theorem checksumMismatchIsReported : Obligations.ChecksumMismatchIsReported := by
  refine ⟨fun s hlen hne => exec_ver_mismatch hlen rfl hne,
    fun s n g h0 h10 hlen hg hbad hbelow => exec_wrd_mismatch h0 h10 hlen hg hbad hbelow, fun i s t h he => ?_⟩
  cases exec_cases h with
  | encOk => simp at he
  | wrdOk => simp at he
  | pmdOk => simp at he
  | _ => exact ⟨rfl, rfl⟩

/-- Settles O34: the outcome of a CMD write is decided by the byte, then by LEN, then by the content check (R145). -/
theorem oneOutcomeInPriorityOrder : Obligations.OneOutcomeInPriorityOrder := by
  intro s v rest hp
  cases hd : decode v with
  | command i =>
    obtain ⟨t, ht, hout⟩ := step_cmd_of_decode_command hp hd
    have hwf : i.wf = true := wf_of_decode_eq_command hd
    refine ⟨t, ht, hout.done_eq, by simp, fun j hj => ?_⟩
    cases hj
    exact ⟨hout.eq_short hwf, fun e g => hout.eq_content hwf, hout.eq_ok hwf⟩
  | illegal why =>
    obtain ⟨t, ht, hst⟩ := step_cmd_of_decode_illegal hp hd
    exact ⟨t, ht, by rw [hst], fun _ _ => hst, by simp⟩

/-- Settles O33: the four commands that need bytes, and the two that need none (R142). -/
theorem shortInputIsReported : Obligations.ShortInputIsReported := by
  refine fun s => ⟨fun hlen => exec_of_case (.verShort s hlen), fun hlen => exec_of_case (.encShort s hlen),
    fun n h0 h10 hlen => exec_of_case (.wrdShort s n h0 h10 hlen), fun hlen => exec_of_case (.pmdShort s hlen),
    fun i hi => ?_⟩
  rcases hi with rfl | rfl
  · exact ⟨_, exec_crc s, rfl⟩
  · exact ⟨_, exec_crcc s, rfl⟩

end Sys2Proof.Machine
end

section
/-! PROOFS. Decoding inverts encoding (30_encoding.md R60, R61): a byte is the packing of its two fields, and the fields of a
packed byte are those it was packed from. -/

namespace Sys2Proof

/-! ### Packing and the fields -/

theorem packFields_argField_opField (b : Byte) : packFields (argField b) (opField b) = b :=
  (BitVec.extractLsb'_append_extractLsb'_eq_extractLsb' (start₁ := 0) (start₂ := 4) rfl).trans
    BitVec.extractLsb'_eq_self

theorem opField_packFields (arg op : Nibble) : opField (packFields arg op) = op :=
  BitVec.extractLsb'_append_eq_right

theorem argField_packFields (arg op : Nibble) : argField (packFields arg op) = arg :=
  BitVec.extractLsb'_append_eq_left

/-- A byte is packed from its argument and any nibble with the number of its operation. -/
theorem packFields_eq_of_fields {b : Byte} {arg op : Nibble} (harg : argField b = arg)
    (hop : (opField b).toNat = op.toNat) : packFields arg op = b := by
  rw [← harg, ← BitVec.eq_of_toNat_eq hop, packFields_argField_opField]

/-! ### The two directions -/

theorem arg_eq_zero_of_requireNoArg_eq_command {arg : Nibble} {i j : Instr} (h : requireNoArg arg i = .command j) :
    arg = 0 := (exists_requireNoArg_eq_command_iff arg i).1 ⟨j, h⟩

theorem encode_of_decode_eq_command {b : Byte} {i : Instr} (h : decode b = .command i) : encode i = b := by
  unfold decode at h
  split at h
  case h_5 hop =>
    split_ifs at h
    cases h
    exact packFields_eq_of_fields rfl hop
  case h_7 => cases h
  all_goals
    cases eq_of_requireNoArg_eq_command h
    exact packFields_eq_of_fields (arg_eq_zero_of_requireNoArg_eq_command h) ‹_›

theorem decode_encode {i : Instr} (h : i.wf = true) : decode (encode i) = .command i := by
  cases i with
  | wrd n =>
    rw [encode, decode, opField_packFields, argField_packFields]
    exact if_pos h
  | _ => decide

end Sys2Proof

namespace Sys2Proof.Machine

/-- Settles O11: what the decoder answers is well formed and encodes to the byte, and a well-formed command is decoded from
its encoding (R60, R61, R63). -/
theorem decodeAndEncodeAgree : Obligations.DecodeAndEncodeAgree := by
  refine fun b i => ⟨fun h => ⟨wf_of_decode_eq_command h, encode_of_decode_eq_command h⟩, ?_⟩
  rintro ⟨hwf, rfl⟩
  exact decode_encode hwf

/-- Settles O12: closed bytes, evaluated (R61, R63). -/
theorem writtenOutBytesDecode : Obligations.WrittenOutBytesDecode := by
  unfold Obligations.WrittenOutBytesDecode
  decide

end Sys2Proof.Machine
end

section
/-! PROOFS. What no command writes (10_state.md R31), and the invariant of the reachable states: it holds at reset and every
event keeps it. -/

namespace Sys2Proof.Machine

/-! ### What a command leaves unchanged -/

section
variable {i : Instr} {s t : State}

/-- A command writes no field but CRC, STATUS, TX and W (R31). -/
theorem ExecCase.frame (h : ExecCase i s t) :
    t = { s with crc := t.crc, status := t.status, tx := t.tx, w := t.w } := by
  cases h <;> rfl

theorem ExecCase.buf_eq (h : ExecCase i s t) : t.buf = s.buf := by rw [h.frame]

theorem ExecCase.len_eq (h : ExecCase i s t) : t.len = s.len := by rw [h.frame]

theorem ExecCase.cmd_eq (h : ExecCase i s t) : t.cmd = s.cmd := by rw [h.frame]

theorem ExecCase.resets_eq (h : ExecCase i s t) : t.resets = s.resets := by rw [h.frame]

theorem ExecCase.bufByte_eq (h : ExecCase i s t) (j : Nat) : t.bufByte j = s.bufByte j := by
  rw [State.bufByte, h.buf_eq, h.resets_eq, State.bufByte]

/-! ### The invariant -/

/-- A command leaves in TX a frame, or what was there. -/
theorem ExecCase.txIsFrame (h : ExecCase i s t) (hs : s.TxIsFrame) : t.TxIsFrame := by
  cases h with
  | encOk => exact .inr rfl
  | _ => exact hs

/-- The index of a failing group is below the count, as a nibble too. -/
theorem ofNat_lt_of_firstBadGroup {n : Nibble} {g : Nat} (h : s.firstBadGroup n.toNat = some g) :
    BitVec.ofNat 4 g < n := by
  obtain ⟨hg, -, -⟩ := State.firstBadGroup_eq_some.1 h
  exact BitVec.lt_def.2 ((Nat.mod_le g _).trans_lt hg)

/-- After a command that comes from the byte in CMD, STATUS is one of that command's outcomes (R140 to R144). -/
theorem ExecCase.statusOfCmd (h : ExecCase i s t) (hd : decode s.cmd = .command i) : t.StatusOfCmd := by
  rw [State.StatusOfCmd, h.cmd_eq, hd]
  cases h with
  | wrdCount _ n hn =>
    obtain ⟨h0, h10⟩ := (wrdCountLegal_iff n).1 (wf_of_decode_eq_command hd)
    omega
  | wrdShort _ n h0 => simpa [ErrCode.code] using (BitVec.lt_def.2 h0 : 0 < n)
  | wrdBad _ n g _ _ _ hg => simpa [ErrCode.code] using ofNat_lt_of_firstBadGroup hg
  | wrdOk _ n h0 => simpa using (BitVec.lt_def.2 h0 : 0 < n)
  | _ => simp [ErrCode.code]

theorem ExecCase.done_eq (h : ExecCase i s t) : t.status.done = true := (exec_outcome (exec_of_case h)).done_eq

end

section
variable {s t : State}

/-- A state with a completed command meets the invariant by the clauses that are not about the state before the first one. -/
theorem State.Inv.of_done (hbuf : Memory.wf s.buf) (hlen : s.len.toNat ≤ Config.bufSize) (htx : s.TxIsFrame)
    (hdone : s.status.done = true) (hst : s.StatusOfCmd) : s.Inv :=
  ⟨hbuf, hlen, htx, fun _ => hst, fun hnot => absurd (hdone.symm.trans hnot) (by decide)⟩

theorem State.reset_inv : State.reset.Inv :=
  ⟨State.reset_buf_wf, by decide, .inl rfl, fun hdone => absurd hdone (by decide), fun _ => ⟨rfl, rfl, rfl, rfl⟩⟩

theorem State.applyReset_inv (s : State) : s.applyReset.Inv := { State.reset_inv with }

/-- Every event keeps the invariant. The events that write neither TX, STATUS, CMD nor W keep its clauses about these. -/
theorem EventCase.inv {e : HostEvent} (h : EventCase e s t) (hs : s.Inv) : t.Inv := by
  cases h with
  | read => exact { hs with }
  | writeBuf _ a v ha => exact { hs with bufWf := Memory.set_wf hs.bufWf ha v }
  | writeLen _ v => exact { hs with lenLegal := (lenClamp_toNat v).le.trans (Nat.min_le_right _ _) }
  | writeCmd _ v i _ hd hc =>
    exact .of_done (hc.buf_eq ▸ hs.bufWf) (hc.len_eq ▸ hs.lenLegal) (hc.txIsFrame hs.txFrame) hc.done_eq
      (hc.statusOfCmd hd)
  | writeIllegal _ v why hd =>
    refine .of_done hs.bufWf hs.lenLegal hs.txFrame rfl ?_
    rw [State.StatusOfCmd, State.raise_cmd, State.setCmd_cmd, hd]
    rfl
  | writeCrc => exact { hs with }
  | writeIgnored => exact hs
  | reset => exact s.applyReset_inv
  | resetInCommand => exact s.applyReset_inv

end

/-- Settles O46: a step takes one event or none, and every event keeps the invariant. -/
theorem everyStepKeepsTheInvariant : Obligations.EveryStepKeepsTheInvariant := by
  intro s t hs h
  rcases step_cases h with ⟨-, rfl⟩ | ⟨e, rest, -, he⟩
  · exact hs
  · exact he.inv { hs with }

/-- Settles O45: the clauses at the reset values (R160). -/
theorem resetMeetsTheInvariant : Obligations.ResetMeetsTheInvariant :=
  ⟨State.reset_inv, rfl, rfl, rfl, rfl, rfl, rfl⟩

end Sys2Proof.Machine
end

section
/-! PROOFS. The frames of the commands, and which events change each register (10_state.md R31). -/

namespace Sys2Proof.Machine

/-! ### Which commands write CRC, TX and W -/

section
variable {i : Instr} {s t : State}

theorem ExecCase.crc_eq_or (h : ExecCase i s t) : t.crc = s.crc ∨ i = .crc ∨ i = .crcc ∨ i = .ver := by
  cases h <;> simp

theorem ExecCase.tx_eq_or (h : ExecCase i s t) :
    t.tx = s.tx ∨ (i = .enc ∧ t.status = { err := 0, done := true, errIdx := 0 }) := by
  cases h with
  | encOk => exact .inr ⟨rfl, rfl⟩
  | _ => exact .inl rfl

theorem ExecCase.w_eq_or (h : ExecCase i s t) :
    t.w = s.w ∨
      (((∃ n, i = .wrd n) ∨ i = .pmd) ∧ t.status = { err := 0, done := true, errIdx := 0 }) := by
  cases h with
  | wrdOk _ n => exact .inr ⟨.inl ⟨n, rfl⟩, rfl⟩
  | pmdOk => exact .inr ⟨.inr rfl, rfl⟩
  | _ => exact .inl rfl

/-- WRD and PMD keep the words from their count up (92_eei_decisions.md D14). -/
theorem ExecCase.word_eq (h : ExecCase i s t) {m : Nat} (hi : (∃ n, i = .wrd n ∧ m = n.toNat) ∨ (i = .pmd ∧ m = 9))
    {k : Fin 10} (hk : m ≤ k.val) : t.w[k] = s.w[k] := by
  cases h with
  | wrdOk _ n =>
    obtain rfl : m = n.toNat := by simpa using hi
    exact (s.setWords_get n.toNat s.groupWord k).trans (if_neg hk.not_gt)
  | pmdOk =>
    obtain rfl : m = 9 := by simpa using hi
    exact (s.setWords_get 9 s.pmField k).trans (if_neg hk.not_gt)
  | _ => rfl

/-! ### The frames -/

/-- After a command every byte of the register space but STATUS reads as before, if CRC, TX and the word at its address are
as before. -/
theorem ExecCase.hostRead_eq (h : ExecCase i s t) {a : PortAddr} (hstatus : a ≠ 0x22) (hcrc : a ≠ 0x23 ∨ t.crc = s.crc)
    (htx : ¬ (0x24 ≤ a.toNat ∧ a.toNat ≤ 0x26) ∨ t.tx = s.tx)
    (hw : ∀ k : Fin 10, a.toNat / 2 = 0x14 + k.val → t.w[k] = s.w[k]) : hostRead t a = hostRead s a := by
  dsimp only [hostRead]
  split_ifs with hbuf hl hc hst hcr htxa hwa heven
  · exact h.bufByte_eq _
  · exact h.len_eq
  · exact h.cmd_eq
  · exact absurd (BitVec.eq_of_toNat_eq hst) hstatus
  · exact hcrc.resolve_left (not_not.2 (BitVec.eq_of_toNat_eq hcr))
  · simp only [htx.resolve_left (by omega)]
  · exact congrArg hiByte (hw ⟨(a.toNat - 0x28) / 2, by omega⟩ (by dsimp only; omega))
  · exact congrArg loByte (hw ⟨(a.toNat - 0x28) / 2, by omega⟩ (by dsimp only; omega))
  · rfl

end

/-- Settles O36: the three commands write neither TX nor W (R82 to R84). -/
theorem codecCommandsFrame : Obligations.CodecCommandsFrame := by
  intro i s t hi h
  have hx := exec_cases h
  have htx : t.tx = s.tx := hx.tx_eq_or.resolve_right (by rcases hi with rfl | rfl | rfl <;> simp)
  have hw : t.w = s.w := hx.w_eq_or.resolve_right (by rcases hi with rfl | rfl | rfl <;> simp)
  exact ⟨fun a h22 h23 => hx.hostRead_eq h22 (.inl h23) (.inr htx) fun k _ => by rw [hw],
    hx.frame.trans (by rw [htx, hw])⟩

/-- Settles O37: ENC writes neither CRC nor W (R100). -/
theorem encFrame : Obligations.EncFrame := by
  intro s t h
  have hx := exec_cases h
  have hcrc : t.crc = s.crc := hx.crc_eq_or.resolve_right (by simp)
  have hw : t.w = s.w := hx.w_eq_or.resolve_right (by simp)
  exact ⟨fun a h22 htx => hx.hostRead_eq h22 (.inr hcrc) (.inl htx) fun k _ => by rw [hw],
    hx.frame.trans (by rw [hcrc, hw])⟩

/-- Settles O38: WRD and PMD write neither CRC nor TX, the words below the count only, and those without an error only
(R102, R120). -/
theorem resultWordCommandsFrame : Obligations.ResultWordCommandsFrame := by
  intro i m s t hi h
  have hx := exec_cases h
  have hcrc : t.crc = s.crc := hx.crc_eq_or.resolve_right (by rcases hi with ⟨n, rfl, -⟩ | ⟨rfl, -⟩ <;> simp)
  have htx : t.tx = s.tx := hx.tx_eq_or.resolve_right (by rcases hi with ⟨n, rfl, -⟩ | ⟨rfl, -⟩ <;> simp)
  refine ⟨fun a h22 hwa => hx.hostRead_eq h22 (.inr hcrc) (.inr htx) fun k hk => hx.word_eq hi (by omega), fun herr => ?_,
    hx.frame.trans (by rw [hcrc, htx])⟩
  exact hx.w_eq_or.resolve_right fun ⟨_, hok⟩ => herr (by rw [hok])

/-! ### Which events write each register -/

/-- The two events that reset the block (70_reset_and_hazards.md R160, R162). -/
def HostEvent.isReset : HostEvent → Prop
  | .reset => True
  | .resetInCommand _ => True
  | .read _ => False
  | .write _ _ => False

theorem HostEvent.not_isReset {e : HostEvent} (hr : e ≠ .reset) (hrc : ∀ v, e ≠ .resetInCommand v) : ¬ e.isReset := by
  cases e with
  | reset => exact absurd rfl hr
  | resetInCommand v => exact absurd rfl (hrc v)
  | _ => exact id

section
variable {e : HostEvent} {s t : State} (h : EventCase e s t) (hr : ¬ e.isReset)
include h hr

theorem EventCase.writer_of_bufByte_ne {j : Nat} (hne : t.bufByte j ≠ s.bufByte j) :
    ∃ a v, e = .write a v ∧ a.toNat = j ∧ j ≤ 0x1F := by
  cases h with
  | writeBuf _ a v ha =>
    have haj : a.toNat = j := not_not.1 fun hja => hne (State.setBuf_bufByte_other s a.toNat v (Ne.symm hja))
    exact ⟨a, v, rfl, haj, by omega⟩
  | writeCmd _ _ _ _ _ hc => exact absurd (hc.bufByte_eq j) hne
  | reset | resetInCommand => exact absurd trivial hr
  | _ => exact absurd rfl hne

theorem EventCase.writer_of_len_ne (hne : t.len ≠ s.len) : ∃ v, e = .write 0x20 v := by
  cases h with
  | writeLen _ v => exact ⟨v, rfl⟩
  | writeCmd _ _ _ _ _ hc => exact absurd hc.len_eq hne
  | reset | resetInCommand => exact absurd trivial hr
  | _ => exact absurd rfl hne

theorem EventCase.writer_of_cmd_or_status_ne (hne : ¬ (t.cmd = s.cmd ∧ t.status = s.status)) :
    ∃ v, e = .write 0x21 v := by
  cases h with
  | writeCmd _ v | writeIllegal _ v => exact ⟨v, rfl⟩
  | reset | resetInCommand => exact absurd trivial hr
  | _ => exact absurd ⟨rfl, rfl⟩ hne

theorem EventCase.writer_of_crc_ne (hne : t.crc ≠ s.crc) :
    ∃ v, e = .write 0x23 v ∨
      (e = .write 0x21 v ∧ (decode v = .command .crc ∨ decode v = .command .crcc ∨ decode v = .command .ver)) := by
  cases h with
  | writeCrc _ v => exact ⟨v, .inl rfl⟩
  | writeCmd _ v _ _ hd hc => exact ⟨v, .inr ⟨rfl, by simpa [hd] using hc.crc_eq_or.resolve_left hne⟩⟩
  | reset | resetInCommand => exact absurd trivial hr
  | _ => exact absurd rfl hne

theorem EventCase.writer_of_tx_ne (hne : t.tx ≠ s.tx) :
    e = .write 0x21 0x04 ∧ t.status = { err := 0, done := true, errIdx := 0 } := by
  cases h with
  | writeCmd _ v _ _ hd hc =>
    obtain ⟨rfl, hok⟩ := hc.tx_eq_or.resolve_left hne
    obtain rfl : 0x04 = v := encode_of_decode_eq_command hd
    exact ⟨rfl, hok⟩
  | reset | resetInCommand => exact absurd trivial hr
  | _ => exact absurd rfl hne

theorem EventCase.writer_of_w_ne (hne : t.w ≠ s.w) :
    ∃ v, e = .write 0x21 v ∧ ((∃ n, decode v = .command (.wrd n)) ∨ decode v = .command .pmd) ∧
      t.status = { err := 0, done := true, errIdx := 0 } := by
  cases h with
  | writeCmd _ v _ _ hd hc => exact ⟨v, rfl, by simpa [hd] using hc.w_eq_or.resolve_left hne⟩
  | reset | resetInCommand => exact absurd trivial hr
  | _ => exact absurd rfl hne

end

/-- Settles O41: register by register, the events that change it (R31). -/
theorem onlyTheirWritersChangeRegisters : Obligations.OnlyTheirWritersChangeRegisters := by
  intro s t e rest hp hr hrc h
  rw [step_of_pending hp] at h
  have he := applyEvent_cases h
  have hnr := HostEvent.not_isReset hr hrc
  exact ⟨fun _ => he.writer_of_bufByte_ne hnr, he.writer_of_len_ne hnr,
    fun hne => he.writer_of_cmd_or_status_ne hnr fun hsame => hne hsame.1,
    fun hne => he.writer_of_cmd_or_status_ne hnr fun hsame => hne hsame.2, he.writer_of_crc_ne hnr,
    he.writer_of_tx_ne hnr, he.writer_of_w_ne hnr⟩

end Sys2Proof.Machine
end

section
/-! PROOFS. What a command depends on: not on STATUS (10_state.md R24), and of BUF on the bytes below LEN only (R22). -/

namespace Sys2Proof.Machine

/-! ### STATUS is never read -/

/-- A command's last write is the whole of STATUS. -/
theorem exec_setStatus (i : Instr) (s : State) (st : Status) : exec i (s.setStatus st) = exec i s := by
  cases i <;> rfl

/-- Settles O39: STATUS before a command has no effect, and its outcome has DONE set (R24, R29). -/
theorem noCommandReadsStatus : Obligations.NoCommandReadsStatus := by
  refine fun i s st => ⟨exec_setStatus i s st, ?_⟩
  obtain ⟨t, ht⟩ := exec_total i s
  exact ⟨t, ht, (exec_cases ht).done_eq⟩

/-! ### BUF is read below LEN only -/

/-- The state with other cells of BUF and another draw of the bytes that are not written (log 1, 3). -/
def State.withBuf (s : State) (b : Memory) (r : Nat) : State := { s with buf := b, resets := r }

section
variable {s u : State}

theorem State.firstBadGroup_congr {n : Nat} (h : ∀ j < 3 * n, u.bufByte j = s.bufByte j) :
    u.firstBadGroup n = s.firstBadGroup n :=
  List.find?_congr fun g hg => by
    have hgn : g < n := List.mem_range.1 hg
    rw [State.groupValid_congr fun i hi => h _ (by omega)]

theorem State.groupWord_congr {g : Nat} (h : ∀ j < 3 * g + 2, u.bufByte j = s.bufByte j) :
    u.groupWord g = s.groupWord g :=
  congrArg₂ be16 (h (3 * g) (by omega)) (h (3 * g + 1) (by omega))

theorem State.setWords_congr {n : Nat} {f g : Nat → Word16} (hfg : ∀ k < n, g k = f k) :
    s.setWords n g = s.setWords n f :=
  congrArg (fun w => { s with w := w }) (State.setWords_w_congr rfl hfg)

/-- A command in a state with another buffer that agrees below LEN takes the same case: its operands are the same, and the
other buffer is kept. -/
theorem ExecCase.withBuf {i : Instr} {t : State} (h : ExecCase i s t) {b : Memory} {r : Nat}
    (hb : ∀ j < s.len.toNat, (s.withBuf b r).bufByte j = s.bufByte j) :
    exec i (s.withBuf b r) = .next (t.withBuf b r) := by
  have hspan : (s.withBuf b r).span = s.span := State.bufTo_congr hb
  have hpayload : (s.withBuf b r).payload = s.payload :=
    State.bufTo_congr (n := s.len.toNat - 1) fun j hj => hb j (by omega)
  have htrailer (hlen : 1 ≤ s.len.toNat) : (s.withBuf b r).trailer = s.trailer := hb (s.len.toNat - 1) (by omega)
  have hmagic (hlen : 32 ≤ s.len.toNat) : (s.withBuf b r).magicValid = s.magicValid :=
    State.magicValid_congr (hb 0 (by omega)) (hb 1 (by omega))
  cases h with
  | crc =>
    rw [exec_crc, hspan]
    rfl
  | crcc =>
    rw [exec_crcc, hspan]
    rfl
  | verShort _ hlen => exact exec_of_case (.verShort _ hlen)
  | verBad _ hlen hc => exact exec_ver_mismatch hlen (congrArg compute hpayload) (htrailer hlen ▸ hc)
  | verOk _ hlen hc => exact exec_ver_ok hlen (congrArg compute hpayload) (hc.trans (htrailer hlen).symm)
  | encShort _ hlen => exact exec_of_case (.encShort _ hlen)
  | encOk _ hlen =>
    rw [exec_of_case (.encOk (s.withBuf b r) hlen), hb 0 (by omega), hb 1 (by omega)]
    rfl
  | wrdCount _ n hn => exact exec_of_case (.wrdCount _ n hn)
  | wrdShort _ n h0 h10 hlen => exact exec_of_case (.wrdShort _ n h0 h10 hlen)
  | wrdBad _ n g h0 h10 hlen hg =>
    exact exec_of_case (.wrdBad _ n g h0 h10 hlen
      ((State.firstBadGroup_congr fun j hj => hb j (by omega)).trans hg))
  | wrdOk _ n h0 h10 hlen hg =>
    rw [exec_of_case (.wrdOk (s.withBuf b r) n h0 h10 hlen
        ((State.firstBadGroup_congr fun j hj => hb j (by omega)).trans hg)),
      State.setWords_congr fun k hk => State.groupWord_congr fun j hj => hb j (by omega)]
    rfl
  | pmdShort _ hlen => exact exec_of_case (.pmdShort _ hlen)
  | pmdBad _ hlen hm => exact exec_of_case (.pmdBad _ hlen ((hmagic hlen).trans hm))
  | pmdOk _ hlen hm =>
    rw [exec_of_case (.pmdOk (s.withBuf b r) hlen ((hmagic hlen).trans hm)),
      State.setWords_congr fun k hk => State.pmField_congr (fun j _ hj => hb j (by omega)) hk]
    rfl

end

/-- Settles O40: the same case with the other buffer; no command writes BUF (R22, R165 (a)). -/
theorem commandsReadOnlyTheSpan : Obligations.CommandsReadOnlyTheSpan := by
  intro i s t b r hb h
  have hx := exec_cases h
  exact ⟨hx.withBuf hb, hx.buf_eq, hx.resets_eq⟩

end Sys2Proof.Machine
end

section
/-! PROOFS. The laws of the checksum function (40_checksum.md R81): chaining and residue, linearity over GF(2), single-bit
changes, and the uniform distribution over two-byte payloads. -/

namespace Sys2Proof.Machine

/-- Settles O16: laws (a), (b), (c) (R81). -/
theorem checksumChainsAndHasZeroResidue : Obligations.ChecksumChainsAndHasZeroResidue :=
  fun i a b => ⟨crc8_nil i, crc8_nil 0xFF, crc8_append i a b, crc8_append_self i a⟩

/-! ### Linearity -/

/-- The shift adds the polynomial if the high bit is set. -/
theorem crcShift_eq_xor (c : Byte) : crcShift c = c <<< 1 ^^^ bif c.getLsbD 7 then Config.crcPoly else 0 := by
  rw [crcShift]
  cases c.getLsbD 7 <;> simp

/-- The shift is linear: the polynomials of the two summands add up to that of the sum, cancelling if both are there. -/
theorem crcShift_xor (c d : Byte) : crcShift (c ^^^ d) = crcShift c ^^^ crcShift d := by
  have hpoly : ∀ a b : Bool, (bif a ^^ b then Config.crcPoly else 0) =
      (bif a then Config.crcPoly else 0) ^^^ bif b then Config.crcPoly else 0 := by decide
  rw [crcShift_eq_xor, crcShift_eq_xor, crcShift_eq_xor, BitVec.getLsbD_xor, hpoly, BitVec.shiftLeft_xor_distrib]
  ac_rfl

theorem crcShifts_xor (k : Nat) (c d : Byte) : crcShifts k (c ^^^ d) = crcShifts k c ^^^ crcShifts k d := by
  induction k generalizing c d with
  | zero => rfl
  | succ k ih => rw [crcShifts, crcShift_xor, ih, crcShifts, crcShifts]

theorem crc8Step_xor (c d b e : Byte) : crc8Step (c ^^^ d) (b ^^^ e) = crc8Step c b ^^^ crc8Step d e := by
  have hswap : c ^^^ d ^^^ (b ^^^ e) = c ^^^ b ^^^ (d ^^^ e) := by ac_rfl
  rw [crc8Step, hswap, crcShifts_xor, crc8Step, crc8Step]

/-- The checksum is linear in the initial value and the bytes together. -/
theorem crc8_xor (i i' : Byte) {x y : List Byte} (h : x.length = y.length) :
    crc8 (i ^^^ i') (List.zipWith (· ^^^ ·) x y) = crc8 i x ^^^ crc8 i' y := by
  induction x generalizing i i' y with
  | nil =>
    obtain rfl : y = [] := List.eq_nil_of_length_eq_zero h.symm
    rfl
  | cons a x ih =>
    obtain ⟨b, y, rfl⟩ := List.exists_cons_of_length_eq_add_one h.symm
    rw [List.zipWith_cons_cons, crc8_cons, crc8Step_xor, ih _ _ (Nat.succ_injective h), crc8_cons, crc8_cons]

/-! ### Single-bit changes -/

theorem crc8_zero_replicate (n : Nat) : crc8 0x00 (List.replicate n 0x00) = 0x00 := by
  induction n with
  | zero => rfl
  | succ n ih => rwa [List.replicate_succ, crc8_cons, crc8Step_self]

/-- From 0, the checksum of zeros around one byte that is not zero is not zero. -/
theorem crc8_zeros_ne_zero {x : Byte} (hx : x ≠ 0x00) (p q : Nat) :
    crc8 0x00 (List.replicate p 0x00 ++ [x] ++ List.replicate q 0x00) ≠ 0x00 := by
  have hzeros : crc8 0x00 (List.replicate p 0x00 ++ 0x00 :: List.replicate q 0x00) = 0x00 := by
    rw [← List.replicate_succ, List.replicate_append_replicate, crc8_zero_replicate]
  rw [List.append_assoc, List.singleton_append]
  exact fun h => hx (crc8_append_cons_inj.1 (h.trans hzeros.symm))

/-- Changing one byte of a list, at any place, changes its checksum. -/
theorem crc8_set_ne {i b : Byte} {x : List Byte} {j : Nat} (hj : j < x.length) (hb : b ≠ x[j]) :
    crc8 i (x.set j b) ≠ crc8 i x := by
  have hset : x.set j b = x.take j ++ b :: x.drop (j + 1) := List.set_eq_take_append_cons_drop.trans (if_pos hj)
  have hx : x = x.take j ++ x[j] :: x.drop (j + 1) := by rw [List.getElem_cons_drop, List.take_append_drop]
  rw [hset]
  exact fun h => hb (crc8_append_cons_inj.1 (h.trans (congrArg (crc8 i) hx)))

/-- Settles O17: law (d) (R81). -/
theorem checksumIsLinearAndSeesOneBit : Obligations.ChecksumIsLinearAndSeesOneBit := by
  refine ⟨fun i x y h => ?_, fun p q k => ?_, fun i x j k => crc8_set_ne j.isLt (xor_oneBit_ne_self _ k.isLt)⟩
  · rw [← crc8_xor i i h, BitVec.xor_self]
    rfl
  · have hbit : 1#8 <<< k.val ≠ 0x00 := by simpa using xor_oneBit_ne_self 0x00 k.isLt
    exact crc8_zeros_ne_zero hbit p q

/-! ### Two-byte payloads -/

/-- For each first byte, the checksum takes each value at one second byte. -/
theorem compute_pair_bijective (a : Byte) : Function.Bijective fun b => compute [a, b] :=
  Finite.injective_iff_bijective.1 fun _ _ h => (crc8_append_cons_inj (a := [a])).1 h

/-- When `f a` is a bijection for each `a`, the pairs that `f` takes to a given value are one for each `a`. -/
theorem card_filter_eq_of_bijective {α β γ : Type} [Fintype α] [Fintype β] [DecidableEq γ] {f : α → β → γ}
    (hf : ∀ a, Function.Bijective (f a)) (v : γ) :
    (Finset.univ.filter fun p : α × β => f p.1 p.2 = v).card = Fintype.card α := by
  refine Finset.card_nbij Prod.fst (fun _ _ => Finset.mem_univ _) ?_ fun a _ => ?_
  · rintro ⟨a, b⟩ hab ⟨a', b'⟩ hab' haa'
    obtain rfl : a = a' := haa'
    have hv : f a b = v := (Finset.mem_filter.1 hab).2
    have hv' : f a b' = v := (Finset.mem_filter.1 hab').2
    rw [(hf a).injective (hv.trans hv'.symm)]
  · obtain ⟨b, hb⟩ := (hf a).surjective v
    exact ⟨(a, b), by simpa using hb, rfl⟩

/-- Settles O18: the payloads with a given checksum are one for each first byte: law (e) (R81). -/
theorem checksumOfTwoBytesIsUniform : Obligations.ChecksumOfTwoBytesIsUniform := by
  have hf (a : Fin (2 ^ 8)) : Function.Bijective fun b : Fin (2 ^ 8) => compute [BitVec.ofFin a, BitVec.ofFin b] :=
    (compute_pair_bijective (BitVec.ofFin a)).comp BitVec.equivFin.symm.bijective
  exact fun v => (card_filter_eq_of_bijective hf v).trans (Fintype.card_fin _)

end Sys2Proof.Machine
end

section
/-! PROOFS. Runs of host events (20_memory.md R49, R51; 70_reset_and_hazards.md R167; 30_encoding.md R67), and the steps that
take a reset or a CMD write (70_reset_and_hazards.md R160, R162). -/

namespace Sys2Proof.Machine

/-! ### Single events in a run -/

/-- A run of one event is the event, with nothing presented after it. -/
theorem runEvents_singleton (e : HostEvent) (s : State) : runEvents [e] s = applyEvent e (s.setPending []) := by
  obtain ⟨t, ht⟩ := applyEvent_total e (s.setPending [])
  have hp : t.pending = [] := (applyEvent_cases ht).pending_eq
  rw [runEvents_cons ht, runEvents_nil, ht, ← hp, State.setPending_self]

/-- Settles O7: the write clamps LEN, and the read returns it (R22). -/
theorem lenReadsBackClamped : Obligations.LenReadsBackClamped := by
  intro s v
  have hwrite : runEvents [.write 0x20 v, .read 0x20] s = runEvents [.read 0x20] (s.setLen (lenClamp v)) :=
    runEvents_cons_of_setPending (hostWrite_len _ v)
  refine ⟨_, hwrite.trans (runEvents_read _ _ _), ?_, lenClamp_toNat v⟩
  rw [← lenClamp_eq_ofNat]
  rfl

/-- A byte of BUF keeps its value through an event that neither resets the block nor writes that byte. -/
theorem EventCase.bufByte_eq {e : HostEvent} {s t : State} (h : EventCase e s t) {a : PortAddr}
    (he : e ≠ .reset ∧ (∀ x, e ≠ .resetInCommand x) ∧ ∀ x, e ≠ .write a x) : t.bufByte a.toNat = s.bufByte a.toNat := by
  obtain ⟨hr, hrc, hw⟩ := he
  by_contra hne
  obtain ⟨b, x, rfl, hb, -⟩ := h.writer_of_bufByte_ne (HostEvent.not_isReset hr hrc) hne
  exact hw x (by rw [BitVec.eq_of_toNat_eq hb])

/-- Settles O8: through the events between, the byte written keeps its value (R51). -/
theorem bufferReadReturnsLatestWrite : Obligations.BufferReadReturnsLatestWrite := by
  intro s a v es ha hes
  obtain ⟨t, hrun, ht⟩ := runEvents_append_keeps (P := fun t => t.bufByte a.toNat = v) [.read a]
    (fun e he _ _ _ hu h => (h.bufByte_eq (hes e he)).trans hu) (State.setBuf_bufByte_same s a.toNat v)
  refine ⟨(t.setPending []).pushRead v, ?_, by simp⟩
  rw [List.cons_append, runEvents_writeBuf ha, hrun, runEvents_read, hostRead_buf _ ha, ht, runEvents_nil]
  rfl

/-! ### Repeated transactions -/

theorem Memory.set_set (m : Memory) (a : Nat) (v w : Byte) : Memory.set (Memory.set m a v) a w = Memory.set m a w := by
  induction m with
  | nil => simp [Memory.set]
  | cons c m ih =>
    obtain ⟨b, x⟩ := c
    rcases lt_trichotomy a b with hlt | rfl | hgt
    · simp [Memory.set, hlt]
    · simp [Memory.set]
    · simp [Memory.set, hgt.not_gt, hgt.ne', ih]

/-- A second write of the same value to an address that is not CMD changes nothing. -/
theorem hostWrite_idem {a : PortAddr} (ha : a ≠ 0x21) {v : Byte} {s t : State} (h : hostWrite a v s = .next t) :
    hostWrite a v t = .next t := by
  cases applyEvent_cases (e := .write a v) h with
  | writeBuf _ _ _ hbuf =>
    rw [hostWrite_buf _ v (by omega)]
    simp only [State.setBuf, Memory.set_set]
  | writeLen => rfl
  | writeCrc => rfl
  | writeIgnored => exact h
  | writeCmd | writeIllegal => exact absurd rfl ha

theorem State.setWords_setWords (s : State) (n : Nat) (f : Nat → Word16) :
    (s.setWords n f).setWords n f = s.setWords n f := by
  have hw : ((s.setWords n f).setWords n f).w = (s.setWords n f).w := Vector.ext fun k hk =>
    ((s.setWords n f).setWords_get n f ⟨k, hk⟩).trans <|
      ite_eq_right_iff.2 fun hkn => ((s.setWords_get n f ⟨k, hk⟩).trans (if_pos hkn)).symm
  exact congrArg (fun w => { s with w := w }) hw

/-- Every command but CRCC, run again on the state it left, leaves that state: STATUS is not read, and what else it has
written it writes again. -/
theorem exec_idem {i : Instr} (hi : i ≠ .crcc) {s t : State} (h : exec i s = .next t) : exec i t = .next t := by
  cases exec_cases h with
  | crcc => exact absurd rfl hi
  | crc => rfl
  | verBad _ hlen hc => exact exec_ver_mismatch hlen rfl hc
  | verOk _ hlen hc => exact exec_ver_ok hlen rfl hc
  | encOk _ hlen => exact exec_of_case (.encOk _ hlen)
  | wrdOk _ n h0 h10 hlen hg =>
    refine (exec_setStatus _ (s.setWords n.toNat s.groupWord) _).trans
      ((exec_of_case (.wrdOk (s.setWords n.toNat s.groupWord) n h0 h10 hlen hg)).trans ?_)
    exact congrArg (fun u : State => Host.Outcome.next u.finish) (s.setWords_setWords n.toNat s.groupWord)
  | pmdOk _ hlen hm =>
    refine (exec_setStatus _ (s.setWords 9 s.pmField) _).trans
      ((exec_of_case (.pmdOk (s.setWords 9 s.pmField) hlen hm)).trans ?_)
    exact congrArg (fun u : State => Host.Outcome.next u.finish) (s.setWords_setWords 9 s.pmField)
  | _ => exact (exec_setStatus _ s _).trans h

/-- Settles O42: a CRCC that differs the second time continues from 0x0C over the same byte BE (R49). -/
theorem repeatingTransactions : Obligations.RepeatingTransactions := by
  refine ⟨fun s a rest => step_read, fun s t a v ha h => ?_, fun i s t hi h => exec_idem hi h, ?_⟩
  · rw [runEvents_singleton] at h ⊢
    have hp : t.pending = [] := (applyEvent_cases h).pending_eq
    rw [← hp, State.setPending_self]
    exact hostWrite_idem ha h
  · exact ⟨State.reset.load [0xBE], _, _, exec_crcc _, exec_crcc _, by decide +kernel⟩

/-! ### Whole runs -/

/-- Settles O43: by induction on the events; each has a next state, and a read adds one value (R167). -/
theorem everyRunEnds : Obligations.EveryRunEnds := by
  intro es
  induction es with
  | nil => exact fun s => ⟨_, runEvents_nil s, rfl, [], by simp, rfl⟩
  | cons e es ih =>
    intro s
    obtain ⟨u, hu⟩ := applyEvent_total e (s.setPending es)
    obtain ⟨t, ht, hp, seen, hreads, hseen⟩ := ih u
    refine ⟨t, (runEvents_cons hu).trans ht, hp, ?_⟩
    rcases (applyEvent_cases hu).reads_eq with ⟨a, rfl, hr⟩ | ⟨hne, hr⟩
    · exact ⟨hostRead s a :: seen, by simp [hreads, hr], by simp [hseen]⟩
    · refine ⟨seen, by simp [hreads, hr], ?_⟩
      cases e with
      | read a => exact absurd rfl (hne a)
      | _ => simpa using hseen

/-- Settles O44: the run of `load` is `State.load` (R67). -/
theorem loadFillsTheSpan : Obligations.LoadFillsTheSpan := by
  intro s bs h
  have hrun : runEvents (Pseudo.load bs).expand s = .next ((s.load bs).setPending []) := by
    rw [← List.append_nil (Pseudo.expand _), runEvents_load h, runEvents_nil]
  refine ⟨_, hrun, s.load_span h, rfl, fun j hj => ?_, ?_⟩
  · rw [State.setPending_bufByte, State.load, State.setLen_bufByte, State.setBufFrom_bufByte]
    simp [hj]
  · rw [State.load_eq]
    rfl

/-! ### Steps -/

theorem State.reset_atResetValues : State.reset.AtResetValues :=
  ⟨rfl, rfl, rfl, rfl, rfl, by decide, by decide⟩

theorem State.applyReset_atResetValues (s : State) : s.applyReset.AtResetValues := { State.reset_atResetValues with }

/-- Settles O1: `applyReset` and the registers of the reset state (R160). -/
theorem resetGivesTheListedValues : Obligations.ResetGivesTheListedValues :=
  ⟨State.reset_atResetValues, fun s rest hp =>
    ⟨(s.setPending rest).applyReset, step_of_pending hp, State.applyReset_atResetValues _, rfl, rfl, rfl⟩⟩

/-- Settles O2: both events are `applyReset` of the state without the event (R162). -/
theorem resetDuringCommandAbandonsIt : Obligations.ResetDuringCommandAbandonsIt :=
  fun s _ rest hp => ⟨(s.setPending rest).applyReset, step_of_pending hp, State.applyReset_atResetValues _, rfl⟩

theorem step_of_pending_nil {s : State} (h : s.pending = []) : step s = .next s := by
  rw [step, takeEvent, h]

theorem tableByte_toNat (b : Byte) : tableByte 8 b.toNat = b := by
  rw [tableByte, Nat.mod_eq_of_lt b.isLt, BitVec.ofNat_toNat, BitVec.setWidth_eq]

/-- Settles O10: the CMD clauses of R43; the word presented is a CMD write of the encoding (R23). -/
theorem stepRunsTheDecodedCommand : Obligations.StepRunsTheDecodedCommand := by
  refine ⟨fun s v i rest hp hd => ?_, fun s v why rest hp hd => ?_, fun s i hwf => ?_, fun s => step_of_pending_nil⟩
  · obtain ⟨-, -, commandWrite, -⟩ := controlRegisterReadsAndWrites s rest
    exact commandWrite v i hp hd
  · obtain ⟨-, -, -, illegalWrite, -⟩ := controlRegisterReadsAndWrites s rest
    exact illegalWrite v why hp hd
  · obtain ⟨-, -, commandWrite, -⟩ := controlRegisterReadsAndWrites (s.withFetchWord 8 (encode i).toNat) s.pending
    refine commandWrite (encode i) i ?_ (decode_encode hwf)
    rw [State.withFetchWord, State.setPending_pending, commandEvent, tableByte_toNat]

/-- Settles O14: the first of WRD's cases (log 11). -/
theorem illegalWrdCountAnswersIllegalCommand : Obligations.IllegalWrdCountAnswersIllegalCommand :=
  fun s n hn => exec_of_case (.wrdCount s n hn)

/-- Settles O35: every command and every event has a next state, and an idle step has one too (R146). -/
theorem nothingStopsTheMachine : Obligations.NothingStopsTheMachine := by
  refine ⟨exec_total, fun s => ?_⟩
  cases hp : s.pending with
  | nil => exact ⟨s, step_of_pending_nil hp⟩
  | cons e rest =>
    rw [step_of_pending hp]
    exact applyEvent_total e _

end Sys2Proof.Machine
end
